-- ==== Sys2Proof/Word.lean ====
section
/-! DEFINITION. The word types of the block and the pixel (spec/00_scope.md R5, R7, R8). -/

namespace Sys2Proof

/-- One byte, bits 7 down to 0 (R7). A pixel component is a byte, unsigned in [0, 255] (R5 `CH_BITS`). -/
abbrev Byte := BitVec 8

/-- The 32-bit word of PACK32 and UNPACK32, bits 31 down to 0 (R5 `WORD_BITS`, R7). -/
abbrev Word32 := BitVec 32

/-- A cache slot number, 0 to 63 (R5 `NSLOTS`, 20_memory.md R53). -/
abbrev Slot := Fin 64

/-- A pixel: four components in the order R, G, B, A (R8). Equality is component-wise, alpha included. -/
structure Pixel where
  r : Byte
  g : Byte
  b : Byte
  a : Byte
deriving DecidableEq, Repr, Inhabited

/-- The pixel cache as an array of exactly 64 slots without valid bits (10_state.md R26, R27). -/
abbrev Cache := Vector Pixel 64

end Sys2Proof
end

