-- ==== Sys2Proof/Config.lean ====
section
/-! DEFINITION. The constants the spec fixes (spec/00_scope.md R5, R6) and the free values: what the spec
leaves without a defined value. A free value is an opaque constant without a body. -/

namespace Sys2Proof.Config

/-- `START` (R5), the START pixel. -/
def start : Pixel := ⟨0, 0, 0, 255⟩

/-- `ZERO` (R5), the zero pixel. -/
def zero : Pixel := ⟨0, 0, 0, 0⟩

/-- `START_SLOT` (R5), the slot of the START pixel. -/
def startSlot : Slot := 53

/-- `PREV_INIT` (R6, decided by 92_eei_decisions.md D2). -/
def prevInit : Pixel := start

/-- `RUN_MAX` (R5), the largest count of one RUN chunk. -/
def runMax : Nat := 62

/-! ### Free values: DEC's context after a fault

60_exceptions.md R224 and 93_implementation_defined.md U4: after a fault `PxOut`, `prev`, `C`, `cur` and `opos` have
no defined value. Each constant takes the number of the draw (`State.free`) and the value the field held when the
fault was raised, so that hardware that leaves the field as it is (R224: nothing else is written) is one of the
values it may have. DESIGN CHOICE, safe: notes/assumptions/4.md. -/

/-- `prev` after the fault of this draw. -/
opaque faultPrev : Nat → Pixel → Pixel

/-- `C` after the fault of this draw. -/
opaque faultCache : Nat → Cache → Cache

/-- `cur` after the fault of this draw. -/
opaque faultCur : Nat → Nat → Nat

/-- `opos` after the fault of this draw. -/
opaque faultOpos : Nat → Nat → Nat

/-- `PxOut` after the fault of this draw. -/
opaque faultPxOut : Nat → List Pixel → List Pixel

end Sys2Proof.Config
end

