-- ==== Sys2Proof/Syntax.lean ====
section
/-! DEFINITION. The instruction set: the six chunk kinds (spec/00_scope.md R2, 30_encoding.md R80), one constructor per
row of spec/opcode_table.json. Operands are the unbiased values of the assembler syntax, 30_encoding.md R95. -/

namespace Sys2Proof

/-- The six chunk kinds without their operands. -/
inductive Kind where
  | rgb
  | rgba
  | index
  | diff
  | luma
  | run
deriving DecidableEq, Repr

/-- One chunk (R80, R95). -/
inductive Instr where
  /-- `RGB r, g, b` (R86). -/
  | rgb (r g b : Byte)
  /-- `RGBA r, g, b, a` (R87). -/
  | rgba (r g b a : Byte)
  /-- `INDEX i` (R83). -/
  | index (i : Slot)
  /-- `DIFF dr, dg, db` (R84), each in [-2, 1]. -/
  | diff (dr dg db : Int)
  /-- `LUMA dg, drg, dbg` (R85): dg in [-32, 31], drg = dr - dg and dbg = db - dg in [-8, 7]. -/
  | luma (dg drg dbg : Int)
  /-- `RUN n` (R82), n in [1, 62]. -/
  | run (count : Nat)
deriving DecidableEq, Repr

/-- The kind of a chunk. -/
def Instr.kind : Instr → Kind
  | .rgb _ _ _ => .rgb
  | .rgba _ _ _ _ => .rgba
  | .index _ => .index
  | .diff _ _ _ => .diff
  | .luma _ _ _ => .luma
  | .run _ => .run

end Sys2Proof
end

