-- ==== Sys2Proof/WellFormed.lean ====
section
/-! DEFINITION. Which chunks have an encoding: the operand ranges of spec/30_encoding.md R82 to R87, R91 and R95.
"Operands outside the stated ranges are not encodable and an assembler refuses them" (R95). -/

namespace Sys2Proof

/-- `x in [lo, hi]`, both ends included (00_scope.md R9). -/
def inRange (x lo hi : Int) : Bool := decide (lo ≤ x) && decide (x ≤ hi)

/-- The operands are in the ranges of R82 to R87; components and slots are in range by their types (R83, R86, R87). -/
def Instr.wf : Instr → Bool
  | .rgb _ _ _ => true
  | .rgba _ _ _ _ => true
  | .index _ => true
  | .diff dr dg db => inRange dr (-2) 1 && inRange dg (-2) 1 && inRange db (-2) 1
  | .luma dg drg dbg => inRange dg (-32) 31 && inRange drg (-8) 7 && inRange dbg (-8) 7
  | .run count => decide (1 ≤ count) && decide (count ≤ Config.runMax)

end Sys2Proof
end

