-- ==== Sys2Proof/Decode.lean ====
section
/-! DEFINITION. From bytes to chunks and back: the first-byte map, the lengths, the fields and biases, the encoding
functions, and the assembler (spec/30_encoding.md R80 to R96). -/

namespace Sys2Proof

/-- `b[hi:lo]`: the unsigned integer made of bits `hi` down to `lo` of `b` (00_scope.md R7). -/
def bits (b : Byte) (hi lo : Nat) : Nat := b.toNat / 2 ^ lo % 2 ^ (hi - lo + 1)

/-! ### The first-byte map -/

/-- The kind that `b0` selects, in the dispatch order of R89 and 43_chunk_decoder.md R173: the 8-bit tags first, then
the two-bit tag. -/
def kindOf (b0 : Byte) : Kind :=
  if b0 = 0xFE then .rgb
  else if b0 = 0xFF then .rgba
  else
    match bits b0 7 6 with
    | 0 => .index
    | 1 => .diff
    | 2 => .luma
    | _ => .run

/-- One row of the opcode table: a mask, a match and the order in which rows are tried (R89). -/
structure OpcodeRow where
  kind : Kind
  mask : Byte
  pattern : Byte
deriving DecidableEq, Repr

/-- R89's mask and match pairs, the two 8-bit rows before the RUN row. -/
def opcodeRows : List OpcodeRow :=
  [⟨.rgb, 0xFF, 0xFE⟩, ⟨.rgba, 0xFF, 0xFF⟩, ⟨.index, 0xC0, 0x00⟩, ⟨.diff, 0xC0, 0x40⟩, ⟨.luma, 0xC0, 0x80⟩,
    ⟨.run, 0xC0, 0xC0⟩]

/-- The kind of the first row whose masked bits match `b0`: R89's table-driven decoder. -/
def tableKind (b0 : Byte) : Option Kind :=
  (opcodeRows.find? fun row => b0 &&& row.mask == row.pattern).map OpcodeRow.kind

/-- The length in bytes of a chunk, a function of `b0` alone (R90). -/
def chunkLength (b0 : Byte) : Nat :=
  if b0 = 0xFE then 4 else if b0 = 0xFF then 5 else if bits b0 7 6 = 2 then 2 else 1

/-- The length in bytes of a chunk, by its kind (R80). -/
def Instr.length : Instr → Nat
  | .rgb _ _ _ => 4
  | .rgba _ _ _ _ => 5
  | .index _ => 1
  | .diff _ _ _ => 1
  | .luma _ _ _ => 2
  | .run _ => 1

/-- How many pixels a chunk represents (R80). -/
def Instr.pixels : Instr → Nat
  | .run count => count
  | .rgb _ _ _ => 1
  | .rgba _ _ _ _ => 1
  | .index _ => 1
  | .diff _ _ _ => 1
  | .luma _ _ _ => 1

/-! ### Decoding -/

/-- Why a byte sequence has no chunk at its head. No first byte and no later byte is illegal (R92): the bytes can only
run out. -/
inductive DecodeReject where
  /-- There is no byte (43_chunk_decoder.md R171). -/
  | exhausted
  /-- The chunk's last bytes are missing (43_chunk_decoder.md R171, 30_encoding.md R96). -/
  | truncated
deriving DecidableEq, Repr

/-- A stored field less its bias; the field is zero-extended, never sign-extended (R91). -/
def unbias (field bias : Nat) : Int := (field : Int) - (bias : Int)

/-- INDEX: `i = b0[5:0]` (R83). -/
def decodeIndex (b0 : Byte) : Instr := .index ⟨bits b0 5 0, Nat.mod_lt _ (by decide)⟩

/-- DIFF: `dr = b0[5:4] - 2`, `dg = b0[3:2] - 2`, `db = b0[1:0] - 2` (R84). -/
def decodeDiff (b0 : Byte) : Instr := .diff (unbias (bits b0 5 4) 2) (unbias (bits b0 3 2) 2) (unbias (bits b0 1 0) 2)

/-- LUMA: `dg = b0[5:0] - 32`, `dr - dg = b1[7:4] - 8`, `db - dg = b1[3:0] - 8` (R85). -/
def decodeLuma (b0 b1 : Byte) : Instr := .luma (unbias (bits b0 5 0) 32) (unbias (bits b1 7 4) 8) (unbias (bits b1 3 0) 8)

/-- RUN: `count = b0[5:0] + 1` (R82). -/
def decodeRun (b0 : Byte) : Instr := .run (bits b0 5 0 + 1)

/-- The chunk at the head of a byte sequence and the bytes after it (R80 to R91, R96). -/
def decode : List Byte → Except DecodeReject (Instr × List Byte)
  | [] => .error .exhausted
  | b0 :: rest =>
    match kindOf b0 with
    | .index => .ok (decodeIndex b0, rest)
    | .diff => .ok (decodeDiff b0, rest)
    | .run => .ok (decodeRun b0, rest)
    | .luma =>
      match rest with
      | b1 :: rest => .ok (decodeLuma b0 b1, rest)
      | _ => .error .truncated
    | .rgb =>
      match rest with
      | r :: g :: b :: rest => .ok (.rgb r g b, rest)
      | _ => .error .truncated
    | .rgba =>
      match rest with
      | r :: g :: b :: a :: rest => .ok (.rgba r g b a, rest)
      | _ => .error .truncated

/-! ### Encoding -/

/-- A byte from an integer that the encoding functions keep in [0, 255]. -/
def byteOf (v : Int) : Byte := BitVec.ofInt 8 v

/-- The encoding functions `enc_RUN`, `enc_INDEX`, `enc_DIFF`, `enc_LUMA`, `enc_RGB`, `enc_RGBA` (R82 to R87), with the
bytes of the spec on well-formed chunks; the assembler below refuses the others. -/
def encode : Instr → List Byte
  | .rgb r g b => [0xFE, r, g, b]
  | .rgba r g b a => [0xFF, r, g, b, a]
  | .index i => [byteOf (i.val : Int)]
  | .diff dr dg db => [byteOf (0x40 + 16 * (dr + 2) + 4 * (dg + 2) + (db + 2))]
  | .luma dg drg dbg => [byteOf (0x80 + (dg + 32)), byteOf (16 * (drg + 8) + (dbg + 8))]
  | .run count => [byteOf (0xC0 + ((count : Int) - 1))]

/-! ### The assembler and the disassembler (R95, R96) -/

/-- One assembler line, its mnemonic and its decimal operands (R95); the spec gives no character-level syntax beyond
that (notes/assumptions/19.md). -/
abbrev AsmLine := String × List Int

/-- A raw component operand, in [0, 255]. -/
def componentOf (v : Int) : Option Byte := if inRange v 0 255 then some (byteOf v) else none

/-- The well-formed chunk of an assembler line; a line with another mnemonic, another number of operands or an operand
outside its range is refused (R95). -/
def parseLine : AsmLine → Option Instr
  | ("RUN", [n]) => if inRange n 1 62 then some (.run n.toNat) else none
  | ("INDEX", [i]) => if inRange i 0 63 then some (.index (Fin.ofNat 64 i.toNat)) else none
  | ("DIFF", [dr, dg, db]) => let i := Instr.diff dr dg db; if i.wf then some i else none
  | ("LUMA", [dg, drg, dbg]) => let i := Instr.luma dg drg dbg; if i.wf then some i else none
  | ("RGB", [r, g, b]) =>
    match componentOf r, componentOf g, componentOf b with
    | some r, some g, some b => some (.rgb r g b)
    | _, _, _ => none
  | ("RGBA", [r, g, b, a]) =>
    match componentOf r, componentOf g, componentOf b, componentOf a with
    | some r, some g, some b, some a => some (.rgba r g b a)
    | _, _, _, _ => none
  | _ => none

/-- The assembler line of a chunk (R95). -/
def Instr.line : Instr → AsmLine
  | .rgb r g b => ("RGB", [(r.toNat : Int), (g.toNat : Int), (b.toNat : Int)])
  | .rgba r g b a => ("RGBA", [(r.toNat : Int), (g.toNat : Int), (b.toNat : Int), (a.toNat : Int)])
  | .index i => ("INDEX", [(i.val : Int)])
  | .diff dr dg db => ("DIFF", [dr, dg, db])
  | .luma dg drg dbg => ("LUMA", [dg, drg, dbg])
  | .run count => ("RUN", [(count : Int)])

/-- A program is a list of chunks; its encoding is the concatenation of their bytes, and a chunk out of range is
refused (R95). -/
def assemble (is : List Instr) : Option (List Byte) := if is.all Instr.wf then some (is.flatMap encode) else none

/-- `disassemble` with a bound on the number of chunks. -/
def disassembleUpTo : Nat → List Byte → List Instr × List Byte
  | 0, bs => ([], bs)
  | k + 1, bs =>
    match decode bs with
    | .error _ => ([], bs)
    | .ok (i, rest) => (i :: (disassembleUpTo k rest).1, (disassembleUpTo k rest).2)

/-- The chunks a byte sequence splits into, and the bytes of a last chunk that is cut short (R96). A chunk takes at
least one byte, so the bound is never met early. -/
def disassemble (bs : List Byte) : List Instr × List Byte := disassembleUpTo bs.length bs

/-! ### The opcode table's words -/

/-- The bytes of a number, the first byte its least significant one: how spec/opcode_table.json numbers bits. -/
def bytesOfNat : Nat → Nat → List Byte
  | 0, _ => []
  | k + 1, w => BitVec.ofNat 8 w :: bytesOfNat k (w / 256)

/-- The bytes of a table word of `nbits` bits, laid out to the longest chunk, five bytes; every bit above `nbits` is 0. -/
def tableBytes (nbits w : Nat) : List Byte := bytesOfNat 5 (w % 2 ^ nbits)

/-- The chunk the decoder reads from a table word. -/
def decodeTableWord (nbits w : Nat) : Option Instr :=
  match decode (tableBytes nbits w) with
  | .ok (i, _) => some i
  | .error _ => none

end Sys2Proof
end

