-- ==== Sys2Proof/Machine/State.lean ====
section
/-! DEFINITION. The state of the block: one ENC context, one DEC context (spec/10_state.md R20 to R38), and the model's
own fields (INVENTORY.md, State). Plain data throughout. -/

namespace Sys2Proof.Machine

/-- ENC's `phase` (R35). -/
inductive EncPhase where
  | active
  | done
deriving DecidableEq, Repr

/-- DEC's `phase` (R35). -/
inductive DecPhase where
  | active
  | done
  | fault
deriving DecidableEq, Repr

/-- The values of `err` (R35, 60_exceptions.md R221). -/
inductive ErrCode where
  /-- Code 0: no fault. -/
  | noFault
  /-- Code 1, raised by `DecReset` only (R223). -/
  | invalidArgument
  /-- Code 2, reserved: never raised by this block (R221; notes/assumptions/18.md). -/
  | invalidFormat
  /-- Code 3, raised by `DecStep` only (R222). -/
  | decodeLengthMismatch
deriving DecidableEq, Repr

/-- The number of a fault code (R221). -/
def ErrCode.code : ErrCode → Nat
  | .noFault => 0
  | .invalidArgument => 1
  | .invalidFormat => 2
  | .decodeLengthMismatch => 3

/-- One encoder context (R20). -/
structure EncCtx where
  /-- The pixel most recently consumed (R23). -/
  prev : Pixel
  /-- Pixels equal to `prev` that no emitted RUN covers yet (R24); in [0, 61] between commands. -/
  run : Nat
  /-- The pixel cache (R26). -/
  C : Cache
  /-- Progress (R35). -/
  phase : EncPhase
  /-- The output byte stream (R33). -/
  Out : List Byte
deriving DecidableEq, Repr

/-- One decoder context with its latched parameters (R20, R32). -/
structure DecCtx where
  /-- The pixel most recently produced (R23). -/
  prev : Pixel
  /-- The pixel cache (R26). -/
  C : Cache
  /-- The byte cursor, the program counter (R29). -/
  cur : Nat
  /-- The output position (R30). -/
  opos : Nat
  /-- Progress (R35). -/
  phase : DecPhase
  /-- The fault code (R35). -/
  err : ErrCode
  /-- The output pixel stream (R33). -/
  PxOut : List Pixel
  /-- The latched number of pixels to produce (R32). -/
  N : Nat
  /-- The latched body (R32). -/
  In : List Byte
deriving DecidableEq, Repr

/-- The latched length of the body, `blen = len(In)` (R32). -/
def DecCtx.blen (d : DecCtx) : Nat := d.In.length

/-- The commands of the host (92_eei_decisions.md D1; 42_chunk_encoder.md R135, 43_chunk_decoder.md R170). -/
inductive Command where
  /-- `EncReset` (70_reset_and_hazards.md R250). -/
  | encReset
  /-- `EncPixel(P)` (R138). -/
  | encPixel (P : Pixel)
  /-- `EncFinish` (R150). -/
  | encFinish
  /-- `DecReset(N, In)` (70_reset_and_hazards.md R251). -/
  | decReset (N : Nat) (In : List Byte)
  /-- `DecStep` (R181). -/
  | decStep
deriving DecidableEq, Repr

/-- Why the machine is stuck: a command outside the state in which it is defined has no step
(70_reset_and_hazards.md R261, 93_implementation_defined.md U1 and U2). The faults of the spec, InvalidArgument and
DecodeLengthMismatch, are NEXT states (60_exceptions.md R224), not these. -/
inductive Fault where
  /-- `EncPixel` or `EncFinish` before ENC's first `EncReset`. Raised by `encPixel` and `encFinish`. Safe: nothing can
  be proved of such a host (notes/assumptions/7.md). -/
  | encBeforeReset
  /-- `EncPixel` or `EncFinish` while ENC's phase is not ACTIVE. Raised by `encPixel` and `encFinish`. Safe, as above. -/
  | encNotActive
  /-- `DecStep` before DEC's first `DecReset`. Raised by `decStep`. Safe, as above. -/
  | decBeforeReset
  /-- `DecStep` while DEC's phase is not ACTIVE. Raised by `decStep`. Safe, as above. -/
  | decNotActive
deriving DecidableEq, Repr

/-- Why an instruction has no meaning in the model. -/
inductive Refusal where
  /-- A row of the opcode table without a meaning yet. Raised by `exec` only; no arm does. Safe: a refusal is no step. -/
  | notModelled (mnemonic : String)
deriving DecidableEq, Repr

/-- The whole block. -/
structure State where
  /-- ENC's context. -/
  enc : EncCtx
  /-- DEC's context. -/
  dec : DecCtx
  /-- ENC has had a reset command (R22, R38; the model's own field, notes/assumptions/6.md). -/
  encUp : Bool
  /-- DEC has had a reset command (R22, R38; the model's own field, notes/assumptions/6.md). -/
  decUp : Bool
  /-- The open parameter `CNT_W` (00_scope.md R6, 92_eei_decisions.md D8): the width of DEC's counters in this build, or
  `none` for the spec's unbounded natural numbers. No step writes it (notes/assumptions/8.md). -/
  cntW : Option Nat
  /-- The commands the host issues next, oldest first; where there is none it issues `DecStep` (70_reset_and_hazards.md
  R255; the model's own field, notes/assumptions/3.md). -/
  host : List Command
  /-- How many free values have been drawn (the model's own field, notes/assumptions/4.md). -/
  free : Nat
deriving DecidableEq, Repr

/-- The reset value of the cache: every slot the zero pixel, then slot 53 the START pixel (R28, 90_conflicts.md C6). -/
def resetCache : Cache := (Vector.replicate 64 Config.zero).set 53 Config.start

/-- ENC's context after `EncReset` (R38, 70_reset_and_hazards.md R250). -/
def EncCtx.reset : EncCtx :=
  { prev := Config.prevInit, run := 0, C := resetCache, phase := .active, Out := [] }

/-- DEC's context after a `DecReset(N, In)` that latched its operands (R38, 70_reset_and_hazards.md R251). -/
def DecCtx.reset (N : Nat) (In : List Byte) : DecCtx :=
  { prev := Config.prevInit, C := resetCache, cur := 0, opos := 0, phase := .active, err := .noFault, PxOut := [],
    N := N, In := In }

/-- The block after `EncReset` and `DecReset(1, [])`: the values of R38. The operands of that `DecReset`, one pixel and an
empty body, are a DESIGN CHOICE (notes/assumptions/1.md): R38 leaves them to the command. -/
def State.reset : State :=
  { enc := EncCtx.reset, dec := DecCtx.reset 1 [], encUp := true, decUp := true, cntW := none, host := [], free := 0 }

end Sys2Proof.Machine
end

