-- ==== Sys2Proof/Machine/Operands.lean ====
section
/-! DEFINITION. Operands and combinational units: the integer functions (spec/00_scope.md R9), HASH and the cache
operations (41_pixel_cache.md R120 to R125), PACK32 and UNPACK32 (40_be32_pack.md R111 to R113) and the pixel on a
32-bit port (20_memory.md R56). None has state; none can fault (60_exceptions.md R228). -/

namespace Sys2Proof.Machine

/-! ### Integer functions (R9) -/

/-- `u8(v) = v mod 256`, never negative (R9). -/
def u8 (v : Int) : Byte := BitVec.ofInt 8 v

/-- `s8(v)`: the two's-complement reading of an 8-bit pattern (R9). -/
def s8 (b : Byte) : Int := if b.toNat < 128 then (b.toNat : Int) else (b.toNat : Int) - 256

/-- `delta(a, b) = s8(u8(a - b))`: the signed 8-bit difference with wraparound (R9). -/
def delta (a b : Byte) : Int := s8 (u8 ((a.toNat : Int) - (b.toNat : Int)))

/-- A component moved by a signed difference, `u8(c + d)` (43_chunk_decoder.md R175, R176). -/
def addDelta (c : Byte) (d : Int) : Byte := u8 ((c.toNat : Int) + d)

/-! ### HASH and the cache (R120 to R125) -/

/-- `HASH(p) = (3r + 5g + 7b + 11a) mod 64` on natural numbers (R120, R121). -/
def hash (p : Pixel) : Slot :=
  ⟨(p.r.toNat * 3 + p.g.toNat * 5 + p.b.toNat * 7 + p.a.toNat * 11) % 64, Nat.mod_lt _ (by decide)⟩

/-- `CacheRead(i)`: the pixel in slot `i`, whatever it is (R124). -/
def cacheRead (i : Slot) (C : Cache) : Pixel := C[i]

/-- `CacheLookup(p)`: does the pixel's own slot hold it? (R123) -/
def cacheLookup (p : Pixel) (C : Cache) : Bool := decide (C[hash p] = p)

/-- `CacheWrite(p)`: the pixel into its own slot, every other slot as it was (R125). -/
def cacheWrite (p : Pixel) (C : Cache) : Cache := C.set (hash p).val p (hash p).isLt

/-! ### PACK32 and UNPACK32 (R111 to R113) -/

/-- `UNPACK32(s)`: four bytes, the first the most significant, as a word (R111). -/
def unpack32 (s : Vector Byte 4) : Word32 :=
  BitVec.ofNat 32 (s[0].toNat * 2 ^ 24 + s[1].toNat * 2 ^ 16 + s[2].toNat * 2 ^ 8 + s[3].toNat)

/-- `PACK32(w)`: a word as four bytes, the most significant first (R112). -/
def pack32 (w : Word32) : Vector Byte 4 :=
  #v[BitVec.ofNat 8 (w.toNat / 2 ^ 24), BitVec.ofNat 8 (w.toNat / 2 ^ 16), BitVec.ofNat 8 (w.toNat / 2 ^ 8),
    BitVec.ofNat 8 w.toNat]

/-- The word read as signed (R113). -/
def wordSigned (w : Word32) : Int := if w.toNat < 2 ^ 31 then (w.toNat : Int) else (w.toNat : Int) - 2 ^ 32

/-- The pattern of a signed integer the caller holds, `v mod 2^32` (R112). -/
def wordOfSigned (v : Int) : Word32 := BitVec.ofInt 32 v

/-- `bytes(p) = [p.r, p.g, p.b, p.a]` (R8). -/
def pixelBytes (p : Pixel) : Vector Byte 4 := #v[p.r, p.g, p.b, p.a]

/-- The word of a pixel on a 32-bit port (R56, R116). -/
def wordOfPixel (p : Pixel) : Word32 := unpack32 (pixelBytes p)

/-- The pixel of a word on a 32-bit port (R56, R116). -/
def pixelOfWord (w : Word32) : Pixel := ⟨(pack32 w)[0], (pack32 w)[1], (pack32 w)[2], (pack32 w)[3]⟩

/-! ### The counters' width (00_scope.md R6, 92_eei_decisions.md D8) -/

/-- A count fits DEC's counters: always where they are unbounded, below `2^w` where the build has `w` bits. -/
def cntFits (cntW : Option Nat) (n : Nat) : Bool :=
  match cntW with
  | none => true
  | some w => decide (n < 2 ^ w)

end Sys2Proof.Machine
end

