-- ==== Sys2Proof/Machine/Flags.lean ====
section
/-! DEFINITION. The block has no condition codes and no chunk sets a flag (spec/10_state.md R34). What stands here are the
conditions that the rules compute afresh each time: "a run was in progress" (R34), and the range tests of the
encoder's decision order (42_chunk_encoder.md R141 to R143). -/

namespace Sys2Proof.Machine

/-- "A run was in progress" is exactly `run > 0` (R34). -/
def runPending (e : EncCtx) : Bool := decide (0 < e.run)

/-- DIFF's condition on the deltas (R142). -/
def fitsDiff (dr dg db : Int) : Bool := inRange dr (-2) 1 && inRange dg (-2) 1 && inRange db (-2) 1

/-- LUMA's condition on the deltas, with exact subtraction (R143, R147). -/
def fitsLuma (dr dg db : Int) : Bool := inRange dg (-32) 31 && inRange (dr - dg) (-8) 7 && inRange (db - dg) (-8) 7

end Sys2Proof.Machine
end

