-- ==== Sys2Proof/Machine/Ops.lean ====
section
/-! DEFINITION. The shared operations on the state: DEC's pixel output, cursor, fetch, fault entry, end check and reset
(spec/43_chunk_decoder.md, 60_exceptions.md R224, 70_reset_and_hazards.md R250, R251), ENC's emission and run counter
(42_chunk_encoder.md). -/

namespace Sys2Proof.Machine

/-! ### Fault entry -/

/-- The `info` of `raise` in the spec's pseudocode: which cause (60_exceptions.md R222, R223). It is not recorded (R224). -/
inductive FaultInfo where
  | exhausted
  | truncated
  | overrun
  | trailing
  | zeroPixels
  | doesNotFit
deriving DecidableEq, Repr

/-- `raise F(info)` (R224): `err` takes the code where it is 0, `phase` becomes FAULT. The remains of DEC's context
(`prev`, `C`, `cur`, `opos`, `PxOut`) have no defined value afterwards: free values. The latched `N` and `In` stay
(notes/assumptions/5.md). -/
def raise (code : ErrCode) (_info : FaultInfo) (s : State) : State :=
  { s with
    free := s.free + 1
    dec :=
      { s.dec with
        err := if s.dec.err = .noFault then code else s.dec.err
        phase := .fault
        prev := Config.faultPrev s.free s.dec.prev
        C := Config.faultCache s.free s.dec.C
        cur := Config.faultCur s.free s.dec.cur
        opos := Config.faultOpos s.free s.dec.opos
        PxOut := Config.faultPxOut s.free s.dec.PxOut } }

/-! ### DEC: production, cursor, fetch, end check -/

/-- `Produce(p)` (R172), the one way DEC outputs a pixel. -/
def produce (p : Pixel) (s : State) : State :=
  { s with
    dec :=
      { s.dec with
        PxOut := s.dec.PxOut ++ [p]
        opos := s.dec.opos + 1
        C := cacheWrite p s.dec.C
        prev := p } }

/-- `repeat count times: Produce(prev)` (R179). -/
def repeatPrev : Nat → State → State
  | 0, s => s
  | count + 1, s => repeatPrev count (produce s.dec.prev s)

/-- `cur <- cur + n` (00_scope.md R11, 10_state.md R29). -/
def advance (n : Nat) (s : State) : State := { s with dec := { s.dec with cur := s.dec.cur + n } }

/-- `MemRead(addr, n)`: the `n` bytes of `In` from `addr`, defined only within the body (00_scope.md R11). -/
def memRead (d : DecCtx) (addr n : Nat) : Option (List Byte) :=
  if addr + n ≤ d.blen then some ((d.In.drop addr).take n) else none

/-- The fetch of `DecStep` (R171): the bytes of the chunk at `cur`, or why there are none. -/
def fetch (d : DecCtx) : Except DecodeReject (List Byte) :=
  match memRead d d.cur 1 with
  | some (b0 :: _) =>
    match memRead d d.cur (chunkLength b0) with
    | some bytes => .ok bytes
    | none => .error .truncated
  | _ => .error .exhausted

/-- Fetch and dispatch (R171, R173): the chunk at `cur`. -/
def fetchInstr (d : DecCtx) : Except DecodeReject Instr :=
  match fetch d with
  | .error r => .error r
  | .ok bytes =>
    match decode bytes with
    | .error r => .error r
    | .ok (i, _) => .ok i

/-- The fault that a failed fetch raises (R171, R222). -/
def raiseFetch (r : DecodeReject) (s : State) : State :=
  match r with
  | .exhausted => raise .decodeLengthMismatch .exhausted s
  | .truncated => raise .decodeLengthMismatch .truncated s

/-- The end check, made at the end of every `DecStep` that did not fault (R180). -/
def endCheck (s : State) : State :=
  if s.dec.phase = .active ∧ s.dec.opos = s.dec.N then
    if s.dec.cur = s.dec.blen then { s with dec := { s.dec with phase := .done } }
    else raise .decodeLengthMismatch .trailing s
  else s

/-! ### ENC: emission and the run counter -/

/-- `Emit(v)`: append to `Out` (00_scope.md R11). -/
def emit (v : List Byte) (e : EncCtx) : EncCtx := { e with Out := e.Out ++ v }

/-- Step 1 of `EncPixel` for a pixel equal to `prev` (42_chunk_encoder.md R136). -/
def extendRun (e : EncCtx) : EncCtx :=
  if e.run + 1 = Config.runMax then { emit (encode (.run Config.runMax)) e with run := 0 }
  else { e with run := e.run + 1 }

/-- Step 2 of `EncPixel` and the flush of `EncFinish` (42_chunk_encoder.md R137, R150). -/
def flushRun (e : EncCtx) : EncCtx :=
  if runPending e then { emit (encode (.run e.run)) e with run := 0 } else e

/-! ### The reset commands -/

/-- `EncReset` (70_reset_and_hazards.md R250). -/
def encReset (s : State) : State := { s with encUp := true, enc := EncCtx.reset }

/-- `DecReset(N, In)` (70_reset_and_hazards.md R251): `err <- 0`; InvalidArgument for no pixel, or for operands that do not
fit the counters of a finite build (60_exceptions.md R223); otherwise latch and reset. -/
def decReset (N : Nat) (In : List Byte) (s : State) : State :=
  let cleared : State := { s with decUp := true, dec := { s.dec with err := .noFault } }
  if N = 0 then raise .invalidArgument .zeroPixels cleared
  else if cntFits s.cntW N && cntFits s.cntW In.length then { cleared with dec := DecCtx.reset N In }
  else raise .invalidArgument .doesNotFit cleared

end Sys2Proof.Machine
end

