-- ==== Sys2Proof/Machine/Cached.lean ====
section
/-! DEFINITION. The INDEX chunk as DEC executes it (spec/43_chunk_decoder.md R174). -/

namespace Sys2Proof.Machine

/-- INDEX (R174): the pixel of slot `i`, alpha included; the cache read comes before the write (41_pixel_cache.md R127). -/
def execIndex (i : Slot) (s : State) : Host.Outcome State Fault Refusal :=
  .next (advance 1 (produce (cacheRead i s.dec.C) s))

end Sys2Proof.Machine
end

