-- ==== Sys2Proof/Machine/Delta.lean ====
section
/-! DEFINITION. The difference chunks as DEC executes them: DIFF and LUMA (spec/43_chunk_decoder.md R175, R176). -/

namespace Sys2Proof.Machine

/-- The previous pixel moved by three differences with 8-bit wraparound, alpha kept (R175, R176). -/
def movedPixel (prev : Pixel) (dr dg db : Int) : Pixel :=
  ⟨addDelta prev.r dr, addDelta prev.g dg, addDelta prev.b db, prev.a⟩

/-- DIFF (R175). -/
def execDiff (dr dg db : Int) (s : State) : Host.Outcome State Fault Refusal :=
  .next (advance 1 (produce (movedPixel s.dec.prev dr dg db) s))

/-- LUMA (R176): red and blue move by their field plus `dg`, all in exact integers until the final sums. -/
def execLuma (dg drg dbg : Int) (s : State) : Host.Outcome State Fault Refusal :=
  .next (advance 2 (produce (movedPixel s.dec.prev (drg + dg) dg (dbg + dg)) s))

end Sys2Proof.Machine
end

