-- ==== Sys2Proof/Machine/Literal.lean ====
section
/-! DEFINITION. The literal chunks as DEC executes them: RGB and RGBA (spec/43_chunk_decoder.md R177, R178). -/

namespace Sys2Proof.Machine

/-- RGB (R177): the raw components with the previous alpha. -/
def execRgb (r g b : Byte) (s : State) : Host.Outcome State Fault Refusal :=
  .next (advance 4 (produce ⟨r, g, b, s.dec.prev.a⟩ s))

/-- RGBA (R178): the raw components; `prev` is not consulted. -/
def execRgba (r g b a : Byte) (s : State) : Host.Outcome State Fault Refusal :=
  .next (advance 5 (produce ⟨r, g, b, a⟩ s))

end Sys2Proof.Machine
end

