-- ==== Sys2Proof/Machine/Run.lean ====
section
/-! DEFINITION. The RUN chunk as DEC executes it (spec/43_chunk_decoder.md R179, R182). -/

namespace Sys2Proof.Machine

/-- RUN (R179): the overrun test before any pixel, then `count` repetitions of the previous pixel. -/
def execRun (count : Nat) (s : State) : Host.Outcome State Fault Refusal :=
  if s.dec.N < s.dec.opos + count then .next (raise .decodeLengthMismatch .overrun s)
  else .next (advance 1 (repeatPrev count s))

end Sys2Proof.Machine
end

