-- ==== Sys2Proof/Machine/Dispatch.lean ====
section
/-! DEFINITION. The execution of one chunk by DEC, without the fetch before it and the end check after it
(spec/43_chunk_decoder.md R173 to R179): one arm per chunk kind. -/

namespace Sys2Proof.Machine

def exec (i : Instr) (s : State) : Host.Outcome State Fault Refusal :=
  match i with
  | .rgb r g b => Sys2Proof.Machine.execRgb r g b s
  | .rgba r g b a => Sys2Proof.Machine.execRgba r g b a s
  | .index slot => Sys2Proof.Machine.execIndex slot s
  | .diff dr dg db => Sys2Proof.Machine.execDiff dr dg db s
  | .luma dg drg dbg => Sys2Proof.Machine.execLuma dg drg dbg s
  | .run count => Sys2Proof.Machine.execRun count s

end Sys2Proof.Machine
end

