-- ==== Sys2Proof/Machine/Decoder.lean ====
section
/-! DEFINITION. The command `DecStep` (spec/43_chunk_decoder.md R170, R181): fetch, execute, check for the end. -/

namespace Sys2Proof.Machine

/-- A chunk executed and the end check after it (R173, R180). -/
def execAndCheck (i : Instr) (s : State) : Host.Outcome State Fault Refusal :=
  match exec i s with
  | .next t => .next (endCheck t)
  | .fault f => .fault f
  | .refused r => .refused r

/-- `DecStep` (R181), defined only after a reset and in `ACTIVE` (70_reset_and_hazards.md R261). -/
def decStep (s : State) : Host.Outcome State Fault Refusal :=
  if s.decUp = false then .fault .decBeforeReset
  else if s.dec.phase = .active then
    match fetchInstr s.dec with
    | .ok i => execAndCheck i s
    | .error r => .next (raiseFetch r s)
  else .fault .decNotActive

end Sys2Proof.Machine
end

