-- ==== Sys2Proof/Machine/Encoder.lean ====
section
/-! DEFINITION. The chunk encoder: the decision order, and the commands `EncPixel` and `EncFinish`
(spec/42_chunk_encoder.md R135 to R153). -/

namespace Sys2Proof.Machine

/-- Steps 4 to 6 of the decision order, for a pixel that missed the cache: DIFF, LUMA, RGB where alpha is unchanged,
RGBA where it is not (R141 to R145). -/
def selectMiss (P prev : Pixel) : Instr :=
  if P.a = prev.a then
    let dr := delta P.r prev.r
    let dg := delta P.g prev.g
    let db := delta P.b prev.b
    if fitsDiff dr dg db then .diff dr dg db
    else if fitsLuma dr dg db then .luma dg (dr - dg) (db - dg)
    else .rgb P.r P.g P.b
  else .rgba P.r P.g P.b P.a

/-- Steps 3 to 6: the chunk for a pixel other than `prev` (R139, R140). -/
def selectChunk (P : Pixel) (e : EncCtx) : Instr :=
  if cacheLookup P e.C then .index (hash P) else selectMiss P e.prev

/-- Steps 3 to 6 with their effects: the cache written on a miss (R140), the chunk emitted, `prev <- P` (R146). -/
def emitChunk (P : Pixel) (e : EncCtx) : EncCtx :=
  let missed := if cacheLookup P e.C then e.C else cacheWrite P e.C
  { emit (encode (selectChunk P e)) e with C := missed, prev := P }

/-- `EncPixel(P)` on a context (R138). -/
def encodePixel (P : Pixel) (e : EncCtx) : EncCtx :=
  if P = e.prev then extendRun e else emitChunk P (flushRun e)

/-- `EncFinish` on a context (R150). -/
def finishEnc (e : EncCtx) : EncCtx := { flushRun e with phase := .done }

/-- A command that ENC takes only after a reset and in `ACTIVE` (R135, 70_reset_and_hazards.md R261). -/
def whenEncActive (f : EncCtx → EncCtx) (s : State) : Host.Outcome State Fault Refusal :=
  if s.encUp = false then .fault .encBeforeReset
  else if s.enc.phase = .active then .next { s with enc := f s.enc }
  else .fault .encNotActive

/-- `EncPixel(P)` (R135, R138). -/
def encPixel (P : Pixel) (s : State) : Host.Outcome State Fault Refusal := whenEncActive (encodePixel P) s

/-- `EncFinish` (R135, R150). -/
def encFinish (s : State) : Host.Outcome State Fault Refusal := whenEncActive finishEnc s

end Sys2Proof.Machine
end

