-- ==== Sys2Proof/Machine/Commands.lean ====
section
/-! DEFINITION. The host's commands (spec/92_eei_decisions.md D1), and the chunk placed where the next `DecStep` fetches. -/

namespace Sys2Proof.Machine

/-- One command, atomic (00_scope.md R12). -/
def runCommand (c : Command) (s : State) : Host.Outcome State Fault Refusal :=
  match c with
  | .encReset => .next (encReset s)
  | .encPixel P => encPixel P s
  | .encFinish => encFinish s
  | .decReset N In => .next (decReset N In s)
  | .decStep => decStep s

/-- The next command the host issues: the oldest of `host`, and `DecStep` where there is none
(notes/assumptions/3.md). -/
def nextCommand (s : State) : Command := s.host.headD .decStep

/-- The state as the next command finds it: that command is no longer pending. -/
def takeCommand (s : State) : State := { s with host := s.host.tail }

/-- `bytes` written over a byte sequence from offset `at`, which is filled up with zeros where it is shorter. -/
def overwrite (seq : List Byte) (offset : Nat) (bytes : List Byte) : List Byte :=
  (seq ++ List.replicate (offset - seq.length) 0).take offset ++ bytes ++ seq.drop (offset + bytes.length)

/-- A chunk's bytes placed at the cursor of a decode in progress, with room for its pixels: what the very next step
needs to fetch and run them to completion (notes/assumptions/16.md). -/
def placeChunk (bytes : List Byte) (s : State) : State :=
  { s with
    host := []
    decUp := true
    dec :=
      { s.dec with
        phase := .active
        In := overwrite s.dec.In s.dec.cur bytes
        N := max s.dec.N (s.dec.opos + Config.runMax + 1) } }

end Sys2Proof.Machine
end

