-- ==== Sys2Proof/Machine/Step.lean ====
section
/-! DEFINITION. One step of the block: one command of the host (spec/00_scope.md R12, 92_eei_decisions.md D1). -/

namespace Sys2Proof.Machine

/-- The host's next command runs to completion. -/
def step (s : State) : Host.Outcome State Fault Refusal := runCommand (nextCommand s) (takeCommand s)

/-- `s` with the opcode-table word `w` of `nbits` bits placed where the next step fetches its chunk. -/
def State.withFetchWord (s : State) (nbits w : Nat) : State := placeChunk (tableBytes nbits w) s

end Sys2Proof.Machine
end

