-- ==== Sys2Proof/Machine/Invocation.lean ====
section
/-! DEFINITION. Whole invocations as functions: EncodeBody (spec/42_chunk_encoder.md R153) and DecodeBody
(43_chunk_decoder.md R184), and the host's list of commands for one encode (70_reset_and_hazards.md R254). -/

namespace Sys2Proof.Machine

/-- ENC's context after the `EncPixel` commands of a pixel sequence, in stream order. -/
def encodePixels (Px : List Pixel) (e : EncCtx) : EncCtx := Px.foldl (fun e P => encodePixel P e) e

/-- `EncodeBody(Px)`: the value of `Out` after `EncReset`, one `EncPixel` per pixel, `EncFinish` (R153). -/
def encodeBody (Px : List Pixel) : List Byte := (finishEnc (encodePixels Px EncCtx.reset)).Out

/-- The commands of one encode (R254). -/
def encodeCommands (Px : List Pixel) : List Command := .encReset :: (Px.map Command.encPixel ++ [.encFinish])

/-- `DecStep` repeated while the phase is ACTIVE, at most `k` times (R170). -/
def decodeWhileActive : Nat → State → State
  | 0, s => s
  | k + 1, s =>
    if s.dec.phase = .active then
      match decStep s with
      | .next t => decodeWhileActive k t
      | .fault _ => s
      | .refused _ => s
    else s

/-- What one decode started in `s` gives: the pixels where it ends in DONE, the fault where it ends in FAULT (R184).
Every step that does not fault produces a pixel (R183), so `N + 1` steps are enough. -/
def decodeFrom (s : State) (In : List Byte) (N : Nat) : Except ErrCode (List Pixel) :=
  let t := decodeWhileActive (N + 1) (decReset N In s)
  match t.dec.phase with
  | .done => .ok t.dec.PxOut
  | .active => .error t.dec.err
  | .fault => .error t.dec.err

/-- `DecodeBody(In, N)` (R184). -/
def decodeBody (In : List Byte) (N : Nat) : Except ErrCode (List Pixel) := decodeFrom State.reset In N

end Sys2Proof.Machine
end

