-- ==== Sys2Proof/Safety.lean ====
section
/-! DEFINITION. What holds of a block in use: the invariants of the spec (10_state.md, 41_pixel_cache.md R128,
44_laws.md R200), and the commands ENC and DEC answer. Nothing is said of a unit before its first reset command
(10_state.md R38), nor of the remains of a faulted decode (60_exceptions.md R224). -/

namespace Sys2Proof.Machine

/-- `C[HASH(prev)] == prev` (R200). -/
abbrev PrevCached (prev : Pixel) (C : Cache) : Prop := cacheRead (hash prev) C = prev

/-- Every slot holds its reset value or a pixel whose own slot it is (R128). -/
abbrev SlotsOwned (C : Cache) : Prop := ∀ i : Slot, cacheRead i C = cacheRead i resetCache ∨ hash (cacheRead i C) = i

/-- What holds of ENC between commands: `run` in [0, 61] (R24) and the cache invariants (R128, R200). -/
abbrev EncCtx.Inv (e : EncCtx) : Prop := e.run ≤ 61 ∧ PrevCached e.prev e.C ∧ SlotsOwned e.C

/-- What holds of DEC between commands where no fault has ended the invocation: positions within their bounds (R29, R30),
legal parameters that fit the counters (R32, R223), `err` clear (R35), the cache invariants (R128, R200). -/
abbrev DecCtx.Sound (cntW : Option Nat) (d : DecCtx) : Prop :=
  d.err = .noFault ∧ d.opos = d.PxOut.length ∧ d.opos ≤ d.N ∧ d.cur ≤ d.blen ∧ 1 ≤ d.N ∧
    cntFits cntW d.N = true ∧ cntFits cntW d.blen = true ∧ PrevCached d.prev d.C ∧ SlotsOwned d.C

/-- What holds of DEC between commands, phase by phase: in ACTIVE pixels are missing (R170), in DONE exactly `N` pixels
have used exactly `blen` bytes (R184), in FAULT `err` names a fault this block raises (R221). -/
abbrev DecCtx.Inv (cntW : Option Nat) (d : DecCtx) : Prop :=
  (d.phase = .active → d.Sound cntW ∧ d.opos < d.N) ∧
    (d.phase = .done → d.Sound cntW ∧ d.opos = d.N ∧ d.cur = d.blen) ∧
    (d.phase = .fault → d.err = .invalidArgument ∨ d.err = .decodeLengthMismatch)

/-- The invariant of the block. -/
abbrev State.Inv (s : State) : Prop :=
  (s.encUp = true → s.enc.Inv) ∧ (s.decUp = true → s.dec.Inv s.cntW)

/-- The next command is a `DecStep` that DEC answers (R170). -/
abbrev DecReady (s : State) : Prop := nextCommand s = .decStep ∧ s.decUp = true ∧ s.dec.phase = .active

/-- The next command is `c`, and ENC is in the state in which it answers `EncPixel` and `EncFinish` (R135). -/
abbrev EncReady (c : Command) (s : State) : Prop := nextCommand s = c ∧ s.encUp = true ∧ s.enc.phase = .active

/-- `k` steps of the block, stopping where the machine is stuck. -/
def runSteps (k : Nat) (s : State) : Host.Outcome State Fault Refusal := Host.Core.run Sys2Proof.core k s

/-- The commands of ENC (R135); the others are DEC's (R170). -/
def Command.isEnc : Command → Bool
  | .encReset => true
  | .encPixel _ => true
  | .encFinish => true
  | .decReset _ _ => false
  | .decStep => false

end Sys2Proof.Machine
end

