-- ==== Sys2Proof/Certificates/Slice0/Obligations.lean ====
section
/-! DEFINITION. The statements for the provers, in the order of the spec's files. Each docstring names the rules of spec/
it formalises. -/

open Sys2Proof Sys2Proof.Machine

/-! ### Encodings (30_encoding.md) -/

/-- The decoder gives back every well-formed chunk that was encoded, and the bytes after it (R82 to R87, R96). -/
def Obligations.DecodeInvertsEncode : Prop :=
  ∀ (i : Instr) (rest : List Byte), i.wf = true → decode (encode i ++ rest) = .ok (i, rest)

/-- R96: every byte sequence splits into well-formed chunks and at most one that is cut short, in exactly one way;
assembly then disassembly returns the lines, disassembly then assembly the bytes. -/
def Obligations.DisassemblyTotalUniqueInverse : Prop :=
  (∀ bs : List Byte,
      (∀ i ∈ (disassemble bs).1, i.wf = true) ∧
        (disassemble bs).1.flatMap encode ++ (disassemble bs).2 = bs ∧
        ((disassemble bs).2 = [] ∨ decode (disassemble bs).2 = .error .truncated)) ∧
    (∀ (is : List Instr) (tail : List Byte), (∀ i ∈ is, i.wf = true) →
      (tail = [] ∨ decode tail = .error .truncated) → disassemble (is.flatMap encode ++ tail) = (is, tail)) ∧
    (∀ (is : List Instr) (bs : List Byte), assemble is = some bs → disassemble bs = (is, [])) ∧
    (∀ bs : List Byte, (disassemble bs).2 = [] → assemble (disassemble bs).1 = some bs)

/-- R88: the first byte's value selects the chunk kind, all 256 values. -/
def Obligations.FirstByteMap : Prop :=
  ∀ (b0 : Byte) (rest : List Byte),
    (b0.toNat ≤ 0x3F → ∃ i : Slot, decode (b0 :: rest) = .ok (.index i, rest) ∧ i.val = b0.toNat) ∧
      (0x40 ≤ b0.toNat → b0.toNat ≤ 0x7F → ∃ dr dg db, decode (b0 :: rest) = .ok (.diff dr dg db, rest)) ∧
      (0x80 ≤ b0.toNat → b0.toNat ≤ 0xBF → ∀ b1 : Byte, ∃ dg drg dbg,
        decode (b0 :: b1 :: rest) = .ok (.luma dg drg dbg, rest)) ∧
      (0xC0 ≤ b0.toNat → b0.toNat ≤ 0xFD → decode (b0 :: rest) = .ok (.run (b0.toNat - 0xBF), rest)) ∧
      (b0 = 0xFE → ∀ r g b : Byte, decode (b0 :: r :: g :: b :: rest) = .ok (.rgb r g b, rest)) ∧
      (b0 = 0xFF → ∀ r g b a : Byte, decode (b0 :: r :: g :: b :: a :: rest) = .ok (.rgba r g b a, rest))

/-- R89: the order of the tests, and the mask and match pairs that give the same result when the two 8-bit rows take
precedence over the RUN row. -/
def Obligations.DispatchOrderMatchesTable : Prop :=
  ∀ b0 : Byte,
    (b0 = 0xFE → kindOf b0 = .rgb) ∧
      (b0 = 0xFF → kindOf b0 = .rgba) ∧
      (b0 ≠ 0xFE → b0 ≠ 0xFF →
        (b0.toNat / 64 = 0 → kindOf b0 = .index) ∧ (b0.toNat / 64 = 1 → kindOf b0 = .diff) ∧
          (b0.toNat / 64 = 2 → kindOf b0 = .luma) ∧ (b0.toNat / 64 = 3 → kindOf b0 = .run)) ∧
      (kindOf b0 = .rgb ↔ b0 &&& 0xFF = 0xFE) ∧
      (kindOf b0 = .rgba ↔ b0 &&& 0xFF = 0xFF) ∧
      (kindOf b0 = .index ↔ b0 &&& 0xC0 = 0x00) ∧
      (kindOf b0 = .diff ↔ b0 &&& 0xC0 = 0x40) ∧
      (kindOf b0 = .luma ↔ b0 &&& 0xC0 = 0x80) ∧
      (kindOf b0 = .run ↔ b0 &&& 0xC0 = 0xC0 ∧ b0 ≠ 0xFE ∧ b0 ≠ 0xFF) ∧
      tableKind b0 = some (kindOf b0)

/-- R90: the length is a function of the first byte alone; the decoder takes exactly that many bytes whatever the later
bytes are, and a sequence with fewer is cut short. -/
def Obligations.ChunkLengthFromFirstByte : Prop :=
  ∀ (b0 : Byte) (t : List Byte),
    (b0 = 0xFE → chunkLength b0 = 4) ∧
      (b0 = 0xFF → chunkLength b0 = 5) ∧
      (b0 ≠ 0xFE → b0 ≠ 0xFF → b0.toNat / 64 = 2 → chunkLength b0 = 2) ∧
      (b0 ≠ 0xFE → b0 ≠ 0xFF → b0.toNat / 64 ≠ 2 → chunkLength b0 = 1) ∧
      (chunkLength b0 ≤ t.length + 1 →
        ∃ i, decode (b0 :: t) = .ok (i, (b0 :: t).drop (chunkLength b0)) ∧ i.length = chunkLength b0) ∧
      (t.length + 1 < chunkLength b0 → decode (b0 :: t) = .error .truncated)

/-- R82 to R87: the encoding function and the decoding of each of the six formats, as numbers. -/
def Obligations.ChunkFormats : Prop :=
  (∀ c : Nat, 1 ≤ c → c ≤ 62 → ∃ b : Byte, encode (.run c) = [b] ∧ b.toNat = 0xC0 + (c - 1)) ∧
    (∀ (b0 : Byte) (rest : List Byte), 0xC0 ≤ b0.toNat → b0.toNat ≤ 0xFD →
      decode (b0 :: rest) = .ok (.run (b0.toNat % 64 + 1), rest)) ∧
    (∀ i : Slot, ∃ b : Byte, encode (.index i) = [b] ∧ b.toNat = i.val) ∧
    (∀ (b0 : Byte) (rest : List Byte), b0.toNat ≤ 0x3F →
      ∃ i : Slot, decode (b0 :: rest) = .ok (.index i, rest) ∧ i.val = b0.toNat % 64) ∧
    (∀ dr dg db : Int, (-2 ≤ dr ∧ dr ≤ 1) → (-2 ≤ dg ∧ dg ≤ 1) → (-2 ≤ db ∧ db ≤ 1) →
      ∃ b : Byte, encode (.diff dr dg db) = [b] ∧
        (b.toNat : Int) = 0x40 + 16 * (dr + 2) + 4 * (dg + 2) + (db + 2)) ∧
    (∀ (b0 : Byte) (rest : List Byte), 0x40 ≤ b0.toNat → b0.toNat ≤ 0x7F →
      decode (b0 :: rest) =
        .ok (.diff ((b0.toNat : Int) / 16 % 4 - 2) ((b0.toNat : Int) / 4 % 4 - 2) ((b0.toNat : Int) % 4 - 2), rest)) ∧
    (∀ dg drg dbg : Int, (-32 ≤ dg ∧ dg ≤ 31) → (-8 ≤ drg ∧ drg ≤ 7) → (-8 ≤ dbg ∧ dbg ≤ 7) →
      ∃ b0 b1 : Byte, encode (.luma dg drg dbg) = [b0, b1] ∧ (b0.toNat : Int) = 0x80 + (dg + 32) ∧
        (b1.toNat : Int) = 16 * (drg + 8) + (dbg + 8)) ∧
    (∀ (b0 b1 : Byte) (rest : List Byte), 0x80 ≤ b0.toNat → b0.toNat ≤ 0xBF →
      decode (b0 :: b1 :: rest) =
        .ok (.luma ((b0.toNat : Int) % 64 - 32) ((b1.toNat : Int) / 16 - 8) ((b1.toNat : Int) % 16 - 8), rest)) ∧
    (∀ r g b : Byte, encode (.rgb r g b) = [0xFE, r, g, b]) ∧
    (∀ (r g b : Byte) (rest : List Byte), decode (0xFE :: r :: g :: b :: rest) = .ok (.rgb r g b, rest)) ∧
    (∀ r g b a : Byte, encode (.rgba r g b a) = [0xFF, r, g, b, a]) ∧
    (∀ (r g b a : Byte) (rest : List Byte), decode (0xFF :: r :: g :: b :: a :: rest) = .ok (.rgba r g b a, rest))

/-- R91, R92, R93: no byte is illegal, decoding fails only where bytes run out, and every decoded operand is in its range
(a RUN of 63 or 64 in particular does not occur). -/
def Obligations.DecodeTotalAndInRange : Prop :=
  ∀ bs : List Byte,
    (5 ≤ bs.length → ∃ i rest, decode bs = .ok (i, rest)) ∧
      (decode bs = .error .exhausted ↔ bs = []) ∧
      ∀ i rest, decode bs = .ok (i, rest) → i.wf = true

/-- The words of 95_test_vectors.md, E1 to E18, decode to the chunks they stand for. -/
def Obligations.SpecWordsDecode : Prop :=
  decode [0xC0] = .ok (.run 1, []) ∧ decode [0xC1] = .ok (.run 2, []) ∧ decode [0xFD] = .ok (.run 62, []) ∧
    decode [0x00] = .ok (.index 0, []) ∧ decode [0x35] = .ok (.index 53, []) ∧ decode [0x3F] = .ok (.index 63, []) ∧
    decode [0x40] = .ok (.diff (-2) (-2) (-2), []) ∧ decode [0x6A] = .ok (.diff 0 0 0, []) ∧
    decode [0x7F] = .ok (.diff 1 1 1, []) ∧ decode [0x72] = .ok (.diff 1 (-2) 0, []) ∧
    decode [0xA0, 0x88] = .ok (.luma 0 0 0, []) ∧ decode [0x80, 0x00] = .ok (.luma (-32) (-8) (-8), []) ∧
    decode [0xBF, 0xFF] = .ok (.luma 31 7 7, []) ∧ decode [0xA5, 0x54] = .ok (.luma 5 (-3) (-4), []) ∧
    decode [0xFE, 0x00, 0x00, 0x00] = .ok (.rgb 0 0 0, []) ∧
    decode [0xFE, 0xFF, 0xFE, 0xFD] = .ok (.rgb 255 254 253, []) ∧
    decode [0xFF, 0x01, 0x02, 0x03, 0x04] = .ok (.rgba 1 2 3 4, []) ∧
    decode [0xFF, 0xFF, 0xFF, 0xFF, 0xFF] = .ok (.rgba 255 255 255 255, [])

/-- R95: the line of each kind, the operand ranges, and the encoding of a program; a line that is no chunk's line, or
whose operands are out of range, is refused. -/
def Obligations.AssemblerLinesExact : Prop :=
  (∀ n : Nat, Instr.line (.run n) = ("RUN", [(n : Int)])) ∧
    (∀ i : Slot, Instr.line (.index i) = ("INDEX", [(i.val : Int)])) ∧
    (∀ dr dg db : Int, Instr.line (.diff dr dg db) = ("DIFF", [dr, dg, db])) ∧
    (∀ dg drg dbg : Int, Instr.line (.luma dg drg dbg) = ("LUMA", [dg, drg, dbg])) ∧
    (∀ r g b : Byte, Instr.line (.rgb r g b) = ("RGB", [(r.toNat : Int), (g.toNat : Int), (b.toNat : Int)])) ∧
    (∀ r g b a : Byte, Instr.line (.rgba r g b a) =
      ("RGBA", [(r.toNat : Int), (g.toNat : Int), (b.toNat : Int), (a.toNat : Int)])) ∧
    (∀ i : Instr, parseLine i.line = if i.wf then some i else none) ∧
    (∀ (l : AsmLine) (i : Instr), parseLine l = some i → i.wf = true ∧ i.line = l) ∧
    (∀ is : List Instr, (∀ i ∈ is, i.wf = true) → assemble is = some (is.flatMap encode)) ∧
    (∀ is : List Instr, (∃ i ∈ is, i.wf = false) → assemble is = none)

/-! ### PACK32 and UNPACK32 (40_be32_pack.md) -/

/-- R111, R112: the byte lanes of both operations, and the pattern of a signed operand. -/
def Obligations.PackUnpackLanes : Prop :=
  (∀ s : Vector Byte 4,
      (unpack32 s).toNat = s[0].toNat * 2 ^ 24 + s[1].toNat * 2 ^ 16 + s[2].toNat * 2 ^ 8 + s[3].toNat ∧
        (unpack32 s).extractLsb' 24 8 = s[0] ∧ (unpack32 s).extractLsb' 16 8 = s[1] ∧
        (unpack32 s).extractLsb' 8 8 = s[2] ∧ (unpack32 s).extractLsb' 0 8 = s[3]) ∧
    (∀ w : Word32,
      (pack32 w)[0] = w.extractLsb' 24 8 ∧ (pack32 w)[1] = w.extractLsb' 16 8 ∧
        (pack32 w)[2] = w.extractLsb' 8 8 ∧ (pack32 w)[3] = w.extractLsb' 0 8) ∧
    ∀ v : Int, ((wordOfSigned v).toNat : Int) = v % 2 ^ 32

/-- R114: both round trips, for every input. -/
def Obligations.PackUnpackRoundTrip : Prop :=
  (∀ s : Vector Byte 4, pack32 (unpack32 s) = s) ∧ ∀ w : Word32, unpack32 (pack32 w) = w

/-- R113: signed and unsigned are two readings of the same 32 bits, and neither operation depends on the reading. -/
def Obligations.SignedReadingIsAView : Prop :=
  ∀ w : Word32,
    (w.toNat < 2 ^ 31 → wordSigned w = (w.toNat : Int)) ∧
      (2 ^ 31 ≤ w.toNat → wordSigned w = (w.toNat : Int) - 2 ^ 32) ∧
      wordOfSigned (wordSigned w) = w ∧ pack32 (wordOfSigned (wordSigned w)) = pack32 w

/-- R56: a pixel on a 32-bit port, R in bits 31:24 down to A in bits 7:0, and back. -/
def Obligations.PixelOnWordPort : Prop :=
  (∀ p : Pixel,
      (wordOfPixel p).extractLsb' 24 8 = p.r ∧ (wordOfPixel p).extractLsb' 16 8 = p.g ∧
        (wordOfPixel p).extractLsb' 8 8 = p.b ∧ (wordOfPixel p).extractLsb' 0 8 = p.a ∧
        pixelOfWord (wordOfPixel p) = p) ∧
    ∀ w : Word32, wordOfPixel (pixelOfWord w) = w

/-! ### HASH and the cache (41_pixel_cache.md) -/

/-- R120, R121: the hash on natural numbers, and the same value from arithmetic of any width of at least six bits. -/
def Obligations.HashIndependentOfWidth : Prop :=
  ∀ p : Pixel,
    (hash p).val = (p.r.toNat * 3 + p.g.toNat * 5 + p.b.toNat * 7 + p.a.toNat * 11) % 64 ∧
      ∀ k : Nat, 6 ≤ k →
        (BitVec.ofNat k p.r.toNat * BitVec.ofNat k 3 + BitVec.ofNat k p.g.toNat * BitVec.ofNat k 5 +
            BitVec.ofNat k p.b.toNat * BitVec.ofNat k 7 + BitVec.ofNat k p.a.toNat * BitVec.ofNat k 11).toNat % 64 =
          (hash p).val

/-- R125, R126: a write lands in the pixel's own slot and nowhere else, and writing only where the slot differs is the
same operation. -/
def Obligations.CacheWriteOwnSlotOnly : Prop :=
  ∀ (p : Pixel) (C : Cache),
    cacheRead (hash p) (cacheWrite p C) = p ∧
      (∀ i : Slot, i ≠ hash p → cacheRead i (cacheWrite p C) = cacheRead i C) ∧
      (if cacheLookup p C then C else cacheWrite p C) = cacheWrite p C

/-- R28, R123: what the reset cache holds, that a lookup examines the one slot of the pixel, and that from reset exactly
the zero pixel and START hit. -/
def Obligations.ResetCacheHitsExactly : Prop :=
  (∀ i : Slot, i ≠ 53 → cacheRead i resetCache = ⟨0, 0, 0, 0⟩) ∧
    cacheRead 53 resetCache = ⟨0, 0, 0, 255⟩ ∧
    (∀ (p : Pixel) (C : Cache), cacheLookup p C = true ↔ cacheRead (hash p) C = p) ∧
    ∀ p : Pixel, cacheLookup p resetCache = true ↔ p = ⟨0, 0, 0, 0⟩ ∨ p = ⟨0, 0, 0, 255⟩

/-! ### The six chunks as DEC executes them (43_chunk_decoder.md): result, completion and frame in one equation -/

/-- R177: RGB takes the raw components and the previous alpha; everything not named stays. -/
def Obligations.RgbExecution : Prop :=
  ∀ (r g b : Byte) (s : State),
    exec (.rgb r g b) s =
      .next
        { s with
          dec :=
            { s.dec with
              PxOut := s.dec.PxOut ++ [⟨r, g, b, s.dec.prev.a⟩]
              opos := s.dec.opos + 1
              C := cacheWrite ⟨r, g, b, s.dec.prev.a⟩ s.dec.C
              prev := ⟨r, g, b, s.dec.prev.a⟩
              cur := s.dec.cur + 4 } }

/-- R178: RGBA takes the raw components, alpha included. -/
def Obligations.RgbaExecution : Prop :=
  ∀ (r g b a : Byte) (s : State),
    exec (.rgba r g b a) s =
      .next
        { s with
          dec :=
            { s.dec with
              PxOut := s.dec.PxOut ++ [⟨r, g, b, a⟩]
              opos := s.dec.opos + 1
              C := cacheWrite ⟨r, g, b, a⟩ s.dec.C
              prev := ⟨r, g, b, a⟩
              cur := s.dec.cur + 5 } }

/-- R174: INDEX produces the pixel of its slot. Where that pixel's own slot is `i` the cache stays; in a cache that only
reset and cache writes have filled (R128), the pixel otherwise is the zero pixel, whose slot is 0. R174's remark that no
slot's content changes does not hold in that last case: notes/assumptions/13.md, and `IndexMayRewriteSlotZero`. -/
def Obligations.IndexExecution : Prop :=
  ∀ (i : Slot) (s : State),
    exec (.index i) s =
        .next
          { s with
            dec :=
              { s.dec with
                PxOut := s.dec.PxOut ++ [s.dec.C[i]]
                opos := s.dec.opos + 1
                C := cacheWrite s.dec.C[i] s.dec.C
                prev := s.dec.C[i]
                cur := s.dec.cur + 1 } } ∧
      (hash s.dec.C[i] = i → cacheWrite s.dec.C[i] s.dec.C = s.dec.C) ∧
      (SlotsOwned s.dec.C → hash s.dec.C[i] ≠ i → s.dec.C[i] = ⟨0, 0, 0, 0⟩ ∧ hash s.dec.C[i] = 0)

/-- R175: DIFF adds its differences to the previous pixel with 8-bit wraparound and keeps alpha. -/
def Obligations.DiffExecution : Prop :=
  ∀ (dr dg db : Int) (s : State),
    ∃ p : Pixel,
      (p.r.toNat : Int) = ((s.dec.prev.r.toNat : Int) + dr) % 256 ∧
        (p.g.toNat : Int) = ((s.dec.prev.g.toNat : Int) + dg) % 256 ∧
        (p.b.toNat : Int) = ((s.dec.prev.b.toNat : Int) + db) % 256 ∧
        p.a = s.dec.prev.a ∧
        exec (.diff dr dg db) s =
          .next
            { s with
              dec :=
                { s.dec with
                  PxOut := s.dec.PxOut ++ [p]
                  opos := s.dec.opos + 1
                  C := cacheWrite p s.dec.C
                  prev := p
                  cur := s.dec.cur + 1 } }

/-- R176: LUMA moves green by dg, red and blue by their field plus dg, with 8-bit wraparound, and keeps alpha. -/
def Obligations.LumaExecution : Prop :=
  ∀ (dg drg dbg : Int) (s : State),
    ∃ p : Pixel,
      (p.r.toNat : Int) = ((s.dec.prev.r.toNat : Int) + (drg + dg)) % 256 ∧
        (p.g.toNat : Int) = ((s.dec.prev.g.toNat : Int) + dg) % 256 ∧
        (p.b.toNat : Int) = ((s.dec.prev.b.toNat : Int) + (dbg + dg)) % 256 ∧
        p.a = s.dec.prev.a ∧
        exec (.luma dg drg dbg) s =
          .next
            { s with
              dec :=
                { s.dec with
                  PxOut := s.dec.PxOut ++ [p]
                  opos := s.dec.opos + 1
                  C := cacheWrite p s.dec.C
                  prev := p
                  cur := s.dec.cur + 2 } }

/-- R179, R182: RUN repeats the previous pixel exactly `count` times and changes only `PxOut`, `opos` and `cur` where the
previous pixel stands in its slot (R200); a run that would carry `opos` past `N` raises DecodeLengthMismatch before
producing anything. -/
def Obligations.RunExecution : Prop :=
  ∀ (count : Nat) (s : State), 1 ≤ count →
    (s.dec.opos + count ≤ s.dec.N →
      exec (.run count) s =
        .next
          { s with
            dec :=
              { s.dec with
                PxOut := s.dec.PxOut ++ List.replicate count s.dec.prev
                opos := s.dec.opos + count
                C := cacheWrite s.dec.prev s.dec.C
                cur := s.dec.cur + 1 } }) ∧
      (s.dec.opos + count ≤ s.dec.N → PrevCached s.dec.prev s.dec.C →
        exec (.run count) s =
          .next
            { s with
              dec :=
                { s.dec with
                  PxOut := s.dec.PxOut ++ List.replicate count s.dec.prev
                  opos := s.dec.opos + count
                  cur := s.dec.cur + 1 } }) ∧
      (s.dec.N < s.dec.opos + count →
        exec (.run count) s = .next (raise .decodeLengthMismatch .overrun s))

/-- The frame of all six chunks (R60, R173, R185): a chunk touches nothing of ENC, the host's list or the latched
parameters (that a fault keeps `N` and `In` is the model's reading, DEDUCED: notes/assumptions/5.md); where it does not
fault it only appends as many pixels as it represents, and leaves every cache slot that is no hash of a produced pixel,
`phase`, `err` and the free values as they were. -/
def Obligations.ChunkFrame : Prop :=
  ∀ (i : Instr) (s t : State), exec i s = .next t →
    t.enc = s.enc ∧ t.encUp = s.encUp ∧ t.decUp = s.decUp ∧ t.cntW = s.cntW ∧ t.host = s.host ∧
      t.dec.N = s.dec.N ∧ t.dec.In = s.dec.In ∧
      ((∃ count, i = .run count ∧ s.dec.N < s.dec.opos + count ∧ t.dec.phase = .fault) ∨
        t.dec.phase = s.dec.phase ∧ t.dec.err = s.dec.err ∧ t.free = s.free ∧ t.dec.cur = s.dec.cur + i.length ∧
          ∃ ps : List Pixel, ps.length = i.pixels ∧ t.dec.PxOut = s.dec.PxOut ++ ps ∧
            t.dec.opos = s.dec.opos + ps.length ∧
            ∀ k : Slot, (∀ p ∈ ps, hash p ≠ k) → cacheRead k t.dec.C = cacheRead k s.dec.C)

/-! ### `DecStep` (43_chunk_decoder.md, 60_exceptions.md) -/

/-- A step whose command is a `DecStep` that DEC answers, on bytes that decode to `i` at the cursor, is the execution of
`i` and then the end check, the command being no longer pending (R173, R181). -/
def Obligations.StepRunsDecodedChunk : Prop :=
  ∀ (s t : State) (i : Instr) (rest : List Byte), DecReady s →
    decode (s.dec.In.drop s.dec.cur) = .ok (i, rest) → exec i (takeCommand s) = .next t →
      step s = .next (endCheck t)

/-- R180: the end check of a step that did not fault: DONE where the last pixel uses the last byte, the trailing fault
where bytes remain, ACTIVE where pixels are missing. -/
def Obligations.EndCheckOutcomes : Prop :=
  ∀ s : State, s.dec.phase = .active →
    (s.dec.opos = s.dec.N → s.dec.cur = s.dec.blen →
      endCheck s = { s with dec := { s.dec with phase := .done } }) ∧
      (s.dec.opos = s.dec.N → s.dec.cur ≠ s.dec.blen →
        endCheck s = raise .decodeLengthMismatch .trailing s) ∧
      (s.dec.opos ≠ s.dec.N → endCheck s = s)

/-- R171: the three ways a `DecStep` begins, by the cursor and the length of the body; the bytes read are those from
`cur` on, as many as the first byte says. -/
def Obligations.FetchBounds : Prop :=
  ∀ s : State, DecReady s →
    (s.dec.blen ≤ s.dec.cur → step s = .next (raise .decodeLengthMismatch .exhausted (takeCommand s))) ∧
      ∀ b0 : Byte, s.dec.In[s.dec.cur]? = some b0 →
        (s.dec.blen < s.dec.cur + chunkLength b0 →
          step s = .next (raise .decodeLengthMismatch .truncated (takeCommand s))) ∧
          (s.dec.cur + chunkLength b0 ≤ s.dec.blen →
            ∃ i, decode ((s.dec.In.drop s.dec.cur).take (chunkLength b0)) = .ok (i, []) ∧
              i.length = chunkLength b0 ∧ step s = execAndCheck i (takeCommand s))

/-- R224: fault entry sets `phase`, sets `err` where it is clear and keeps it where it is not, records no cause, and
writes nothing outside the context's remains. The remains (`PxOut`, `prev`, `C`, `cur`, `opos`) have no defined value:
the model holds free values there (notes/assumptions/4.md), of which nothing is said. -/
def Obligations.FaultEntryDefinedPart : Prop :=
  ∀ (code : ErrCode) (x y : FaultInfo) (s : State),
    (raise code x s).dec.phase = .fault ∧
      (s.dec.err = .noFault → (raise code x s).dec.err = code) ∧
      (s.dec.err ≠ .noFault → (raise code x s).dec.err = s.dec.err) ∧
      raise code x s = raise code y s ∧
      (raise code x s).dec.N = s.dec.N ∧ (raise code x s).dec.In = s.dec.In ∧
      (raise code x s).enc = s.enc ∧ (raise code x s).encUp = s.encUp ∧ (raise code x s).decUp = s.decUp ∧
      (raise code x s).cntW = s.cntW ∧ (raise code x s).host = s.host

/-- R222 and R180: a `DecStep` always completes; it ends in FAULT exactly in the four cases, with code 3, and in DONE
exactly where its chunk produces the last pixel from the last byte. -/
def Obligations.DecStepOutcomeExact : Prop :=
  ∀ s : State, s.Inv → DecReady s →
    ∃ t, step s = .next t ∧
      (t.dec.phase = .fault ↔
        s.dec.blen ≤ s.dec.cur ∨
          (∃ b0, s.dec.In[s.dec.cur]? = some b0 ∧ s.dec.blen < s.dec.cur + chunkLength b0) ∨
          (∃ count rest, decode (s.dec.In.drop s.dec.cur) = .ok (.run count, rest) ∧
            s.dec.N < s.dec.opos + count) ∨
          ∃ i rest, decode (s.dec.In.drop s.dec.cur) = .ok (i, rest) ∧ s.dec.opos + i.pixels = s.dec.N ∧
            s.dec.cur + i.length < s.dec.blen) ∧
      (t.dec.phase = .fault → t.dec.err = .decodeLengthMismatch) ∧
      (t.dec.phase = .done ↔
        ∃ i rest, decode (s.dec.In.drop s.dec.cur) = .ok (i, rest) ∧ s.dec.opos + i.pixels = s.dec.N ∧
          s.dec.cur + i.length = s.dec.blen)

/-- R183, read for steps that do not fault (notes/assumptions/12.md): DEC leaves ACTIVE after at most one step more than
the pixels missing and the bytes left, and every step that leaves it in ACTIVE uses up one of each. -/
def Obligations.DecodeTerminates : Prop :=
  ∀ s : State, s.Inv → s.decUp = true → s.dec.phase = .active → s.host = [] →
    (∀ k t, runSteps k s = .next t → t.dec.phase = .active →
      k ≤ s.dec.N - s.dec.opos ∧ k ≤ s.dec.blen - s.dec.cur) ∧
      ∃ k t, k ≤ min (s.dec.N - s.dec.opos) (s.dec.blen - s.dec.cur) + 1 ∧ runSteps k s = .next t ∧
        t.dec.phase ≠ .active

/-- R92, R183, 92_eei_decisions.md D5: a body decodes exactly where its bytes split into whole chunks that represent `N`
pixels; otherwise the fault is DecodeLengthMismatch. -/
def Obligations.DecodeSucceedsExactly : Prop :=
  ∀ (In : List Byte) (N : Nat), 1 ≤ N →
    ((∃ ps, decodeBody In N = .ok ps) ↔
        (disassemble In).2 = [] ∧ ((disassemble In).1.map Instr.pixels).sum = N) ∧
      (¬ (∃ ps, decodeBody In N = .ok ps) → decodeBody In N = .error .decodeLengthMismatch)

/-- R174 and R128, a consequence the remark in R174 overlooks (notes/assumptions/13.md): from reset, RGBA 0,0,0,128 fills
slot 0, and INDEX 5, a slot never written, then writes the zero pixel over it. -/
def Obligations.IndexMayRewriteSlotZero : Prop :=
  ∃ s t : State,
    runSteps 1 (decReset 3 [0xFF, 0x00, 0x00, 0x00, 0x80, 0x05] State.reset) = .next s ∧
      cacheRead 0 s.dec.C = ⟨0, 0, 0, 128⟩ ∧ exec (.index 5) s = .next t ∧ cacheRead 0 t.dec.C = ⟨0, 0, 0, 0⟩

/-! ### The encoder (42_chunk_encoder.md) -/

/-- R136: a pixel equal to `prev` extends the run; at 62 the byte 0xFD is emitted and the count is 0 again; cache and
`prev` stay. -/
def Obligations.EncRunExtension : Prop :=
  ∀ s : State, EncReady (.encPixel s.enc.prev) s →
    (s.enc.run + 1 ≠ 62 →
      step s = .next { takeCommand s with enc := { s.enc with run := s.enc.run + 1 } }) ∧
      (s.enc.run + 1 = 62 →
        step s = .next { takeCommand s with enc := { s.enc with Out := s.enc.Out ++ [0xFD], run := 0 } })

/-- R137, R139, R146: a pixel other than `prev` that its cache slot holds gives INDEX, after the RUN chunk of a pending
run; the cache stays, `prev` becomes the pixel. -/
def Obligations.EncIndexSelected : Prop :=
  ∀ (s : State) (P : Pixel), EncReady (.encPixel P) s → P ≠ s.enc.prev → cacheRead (hash P) s.enc.C = P →
    step s =
      .next
        { takeCommand s with
          enc :=
            { s.enc with
              prev := P
              run := 0
              Out := s.enc.Out ++ (if 0 < s.enc.run then [BitVec.ofNat 8 (0xC0 + (s.enc.run - 1))] else []) ++
                [BitVec.ofNat 8 (hash P).val] } }

/-- R137, R140 to R146: a pixel other than `prev` that misses the cache is written to its slot and becomes `prev`, and
DIFF, LUMA, RGB or RGBA is emitted by the alpha test and the ranges of the wrapped differences, after the RUN chunk of a
pending run. -/
def Obligations.EncMissSelection : Prop :=
  ∀ (s : State) (P : Pixel), EncReady (.encPixel P) s → P ≠ s.enc.prev → cacheRead (hash P) s.enc.C ≠ P →
    let dr := (P.r - s.enc.prev.r).toInt
    let dg := (P.g - s.enc.prev.g).toInt
    let db := (P.b - s.enc.prev.b).toInt
    let diff := (-2 ≤ dr ∧ dr ≤ 1) ∧ (-2 ≤ dg ∧ dg ≤ 1) ∧ (-2 ≤ db ∧ db ≤ 1)
    let luma := (-32 ≤ dg ∧ dg ≤ 31) ∧ (-8 ≤ dr - dg ∧ dr - dg ≤ 7) ∧ (-8 ≤ db - dg ∧ db - dg ≤ 7)
    ∃ bytes : List Byte,
      step s =
          .next
            { takeCommand s with
              enc :=
                { s.enc with
                  prev := P
                  run := 0
                  C := cacheWrite P s.enc.C
                  Out := s.enc.Out ++ (if 0 < s.enc.run then [BitVec.ofNat 8 (0xC0 + (s.enc.run - 1))] else []) ++
                    bytes } } ∧
        (P.a ≠ s.enc.prev.a → bytes = [0xFF, P.r, P.g, P.b, P.a]) ∧
        (P.a = s.enc.prev.a → diff →
          bytes = [BitVec.ofInt 8 (0x40 + 16 * (dr + 2) + 4 * (dg + 2) + (db + 2))]) ∧
        (P.a = s.enc.prev.a → ¬ diff → luma →
          bytes = [BitVec.ofInt 8 (0x80 + (dg + 32)), BitVec.ofInt 8 (16 * (dr - dg + 8) + (db - dg + 8))]) ∧
        (P.a = s.enc.prev.a → ¬ diff → ¬ luma → bytes = [0xFE, P.r, P.g, P.b])

/-- R150: `EncFinish` flushes a pending run and ends the invocation; without a pending run nothing is emitted. -/
def Obligations.EncFinishFlushes : Prop :=
  ∀ s : State, EncReady .encFinish s →
    (0 < s.enc.run →
      step s =
        .next
          { takeCommand s with
            enc :=
              { s.enc with
                Out := s.enc.Out ++ [BitVec.ofNat 8 (0xC0 + (s.enc.run - 1))]
                run := 0
                phase := .done } }) ∧
      (s.enc.run = 0 → step s = .next { takeCommand s with enc := { s.enc with phase := .done } })

/-- R148: how many bytes each command appends, and the bounds on a whole body. -/
def Obligations.EncBytesPerCommand : Prop :=
  (∀ (e : EncCtx) (P : Pixel),
      (P = e.prev → e.run + 1 ≠ 62 → (encodePixel P e).Out = e.Out) ∧
        (P = e.prev → e.run + 1 = 62 → (encodePixel P e).Out.length = e.Out.length + 1) ∧
        (P ≠ e.prev →
          ((selectChunk P e).kind ≠ .run) ∧
            (encodePixel P e).Out.length =
              e.Out.length + (if 0 < e.run then 1 else 0) +
                (match (selectChunk P e).kind with
                  | .index => 1
                  | .diff => 1
                  | .luma => 2
                  | .rgb => 4
                  | .rgba => 5
                  | .run => 0))) ∧
    (∀ e : EncCtx, (finishEnc e).Out.length = e.Out.length + (if 0 < e.run then 1 else 0)) ∧
    ∀ Px : List Pixel, (encodeBody Px).length ≤ 5 * Px.length ∧ Px.length ≤ 62 * (encodeBody Px).length

/-- R52, R149: every chunk builder that ENC calls is called in its domain: the chunk selected for a pixel, the RUN chunk
at 62, and the RUN chunk of a pending run of at most 61 (R24) have their operands in range before they are encoded. A body
is a concatenation of whole well-formed chunks that represent exactly the pixels consumed. -/
def Obligations.EncodedBodyIsChunks : Prop :=
  (∀ (P : Pixel) (e : EncCtx), (selectChunk P e).wf = true) ∧
    (Instr.run Config.runMax).wf = true ∧
    (∀ e : EncCtx, runPending e = true → e.run ≤ 61 → (Instr.run e.run).wf = true) ∧
    (∀ Px : List Pixel, (encodePixels Px EncCtx.reset).run ≤ 61) ∧
    ∀ Px : List Pixel,
      ∃ is : List Instr, (∀ i ∈ is, i.wf = true) ∧ encodeBody Px = is.flatMap encode ∧
        disassemble (encodeBody Px) = (is, []) ∧ (is.map Instr.pixels).sum = Px.length

/-- R135, R227: in ACTIVE, `EncPixel` of every pixel and `EncFinish` complete, and `EncReset` completes everywhere; none
touches DEC. -/
def Obligations.EncCommandsComplete : Prop :=
  ∀ s : State,
    (∀ P : Pixel, EncReady (.encPixel P) s →
      ∃ t, step s = .next t ∧ t.enc.phase = .active ∧ t.enc.prev = P ∧ t.encUp = true ∧ t.dec = s.dec) ∧
      (EncReady .encFinish s →
        ∃ t, step s = .next t ∧ t.enc.phase = .done ∧ t.enc.run = 0 ∧ t.encUp = true ∧ t.dec = s.dec) ∧
      (nextCommand s = .encReset →
        ∃ t, step s = .next t ∧ t.enc.phase = .active ∧ t.encUp = true ∧ t.dec = s.dec)

/-- R151: the first match is a smallest one: no chunk that DEC would turn into the pixel from the same `prev` and cache
(INDEX by the pixel's own slot) is shorter than the chunk selected, and where INDEX applies it is the one selected. -/
def Obligations.FirstMatchIsSmallest : Prop :=
  ∀ (P : Pixel) (e : EncCtx), P ≠ e.prev →
    (cacheLookup P e.C = true → selectChunk P e = .index (hash P)) ∧
      ∀ (i : Instr) (s t : State), i.wf = true → i.kind ≠ .run → (∀ k, i = .index k → k = hash P) →
        s.dec.prev = e.prev → s.dec.C = e.C → exec i s = .next t → t.dec.prev = P →
          (encode (selectChunk P e)).length ≤ (encode i).length

/-- R152, R94: what ENC never emits: DIFF 0,0,0, an INDEX of a slot that holds `prev`, a larger kind where a smaller one
applies, an INDEX of a slot other than 0 and 53 that no miss has written since reset, a RUN whose pixels differ from the
one before them (`PREV_INIT` before the first), two adjacent RUN chunks of which the first is below 62, a body that begins
with INDEX 53. -/
def Obligations.EncNeverEmits : Prop :=
  (∀ (P : Pixel) (e : EncCtx), P ≠ e.prev →
      selectChunk P e ≠ .diff 0 0 0 ∧
        (∀ i, selectChunk P e = .index i → cacheRead i e.C ≠ e.prev) ∧
        ((selectChunk P e).kind = .luma →
          ¬ fitsDiff (delta P.r e.prev.r) (delta P.g e.prev.g) (delta P.b e.prev.b) = true) ∧
        ((selectChunk P e).kind = .rgb →
          ¬ fitsDiff (delta P.r e.prev.r) (delta P.g e.prev.g) (delta P.b e.prev.b) = true ∧
            ¬ fitsLuma (delta P.r e.prev.r) (delta P.g e.prev.g) (delta P.b e.prev.b) = true ∧
            ¬ cacheLookup P e.C = true) ∧
        ((selectChunk P e).kind = .rgba → P.a ≠ e.prev.a ∧ ¬ cacheLookup P e.C = true)) ∧
    (∀ (Px : List Pixel) (P : Pixel) (i : Slot), P ≠ (encodePixels Px EncCtx.reset).prev →
      selectChunk P (encodePixels Px EncCtx.reset) = .index i → i ≠ 0 → i ≠ 53 →
        ∃ before after : List Pixel, Px = before ++ P :: after ∧ hash P = i ∧
          P ≠ (encodePixels before EncCtx.reset).prev ∧ cacheLookup P (encodePixels before EncCtx.reset).C = false) ∧
    (∀ (Px : List Pixel) (k c : Nat), (disassemble (encodeBody Px)).1[k]? = some (.run c) →
      ∀ j : Nat, j < c →
        let pos : Nat := (((disassemble (encodeBody Px)).1.take k).map Instr.pixels).sum + j
        pos < Px.length ∧ Px[pos]? = (Config.prevInit :: Px)[pos]?) ∧
    ∀ Px : List Pixel,
      (disassemble (encodeBody Px)).1.head? ≠ some (.index 53) ∧
        ∀ (k c c' : Nat), (disassemble (encodeBody Px)).1[k]? = some (.run c) →
          (disassemble (encodeBody Px)).1[k + 1]? = some (.run c') → c = 62

/-! ### Whole invocations, and the laws of 44_laws.md -/

/-- R153: from every state, the commands of one encode leave the body of the pixel sequence in `Out`, a function of the
pixels alone; DEC and the commands after are untouched. -/
def Obligations.EncodeBodyIsWhatEncDoes : Prop :=
  ∀ (s : State) (Px : List Pixel) (rest : List Command), s.host = encodeCommands Px ++ rest →
    ∃ t, runSteps (Px.length + 2) s = .next t ∧ t.enc.Out = encodeBody Px ∧ t.enc.phase = .done ∧
      t.host = rest ∧ t.dec = s.dec

/-- R184: from every state of a build with unbounded counters, `DecReset(N, In)` and `DecStep` while ACTIVE end, with the
pixels of DecodeBody in DONE (exactly `N`, from exactly `blen` bytes) and its fault in FAULT. -/
def Obligations.DecodeBodyIsWhatDecDoes : Prop :=
  ∀ (s : State) (In : List Byte) (N : Nat), s.host = [.decReset N In] → s.cntW = none →
    ∃ k t, runSteps (k + 1) s = .next t ∧ t.dec.phase ≠ .active ∧
      (t.dec.phase = .done →
        decodeBody In N = .ok t.dec.PxOut ∧ t.dec.PxOut.length = N ∧ t.dec.cur = In.length) ∧
      (t.dec.phase = .fault → decodeBody In N = .error t.dec.err)

/-- R202: the wrapped difference is exact, and each of DIFF, LUMA, RGB and RGBA as ENC selects it rebuilds the encoder's
pixel from the same `prev`. -/
def Obligations.ReconstructionExact : Prop :=
  (∀ a b : Byte, u8 ((b.toNat : Int) + delta a b) = a) ∧
    ∀ (P : Pixel) (s t : State), exec (selectMiss P s.dec.prev) s = .next t →
      t.dec.prev = P ∧ t.dec.PxOut = s.dec.PxOut ++ [P]

/-- R201: lockstep. DEC runs on the body ENC made, from its reset; at the moment it has made exactly `k` productions (after
some steps, and within a RUN chunk after `m` of its repetitions) its `prev` and cache are ENC's after `k` pixels, and it
has produced exactly those pixels. The empty sequence is left out, since `DecReset` refuses it (R223). -/
def Obligations.Lockstep : Prop :=
  ∀ Px : List Pixel, Px ≠ [] → ∀ k : Nat, k ≤ Px.length →
    ∃ (j m : Nat) (s : State),
      runSteps j (decReset Px.length (encodeBody Px) State.reset) = .next s ∧ s.dec.phase ≠ .fault ∧
        s.dec.opos + m = k ∧
        (m = 0 ∨ s.dec.phase = .active ∧ ∃ count, fetchInstr s.dec = .ok (.run count) ∧ m ≤ count) ∧
        (repeatPrev m s).dec.prev = (encodePixels (Px.take k) EncCtx.reset).prev ∧
        (repeatPrev m s).dec.C = (encodePixels (Px.take k) EncCtx.reset).C ∧
        (repeatPrev m s).dec.PxOut = Px.take k

/-- R203: the round trip, for every pixel sequence of at least one pixel. -/
def Obligations.RoundTrip : Prop :=
  ∀ Px : List Pixel, 1 ≤ Px.length → decodeBody (encodeBody Px) Px.length = .ok Px

/-- R204: the length is checked: a body decodes with `M` pixels exactly where `M` is its number of pixels, and otherwise
gives DecodeLengthMismatch. -/
def Obligations.LengthIsChecked : Prop :=
  ∀ (Px : List Pixel) (M : Nat), 1 ≤ Px.length → 1 ≤ M →
    ((∃ ps, decodeBody (encodeBody Px) M = .ok ps) ↔ M = Px.length) ∧
      (M ≠ Px.length → decodeBody (encodeBody Px) M = .error .decodeLengthMismatch)

/-- R205: encoding is injective on sequences of at least one pixel; decoding is not injective, and encoding does not undo
it. -/
def Obligations.EncodeInjectiveDecodeNot : Prop :=
  (∀ Px Qx : List Pixel, 1 ≤ Px.length → 1 ≤ Qx.length → encodeBody Px = encodeBody Qx → Px = Qx) ∧
    decodeBody [0x6A] 1 = .ok [⟨0, 0, 0, 255⟩] ∧ decodeBody [0xC0] 1 = .ok [⟨0, 0, 0, 255⟩] ∧
    decodeBody [0x35] 1 = .ok [⟨0, 0, 0, 255⟩] ∧ encodeBody [⟨0, 0, 0, 255⟩] = [0xC0]

/-- R206: `m` repetitions of `prev` become `m div 62` full RUN chunks and one for the rest, before the next pixel's own
chunk or at `EncFinish`; the two bodies of 130 pixels that the rule gives. -/
def Obligations.RunBounds : Prop :=
  (∀ (e : EncCtx) (m : Nat), e.run = 0 → 1 ≤ m →
      let runs : List Byte := List.replicate (m / 62) 0xFD ++
        if m % 62 = 0 then [] else [BitVec.ofNat 8 (0xC0 + (m % 62 - 1))]
      (finishEnc (encodePixels (List.replicate m e.prev) e)).Out = e.Out ++ runs ∧
        ∀ Q : Pixel, Q ≠ e.prev →
          (encodePixel Q (encodePixels (List.replicate m e.prev) e)).Out =
            e.Out ++ runs ++ encode (selectChunk Q e)) ∧
    encodeBody (List.replicate 130 ⟨0, 0, 0, 255⟩) = [0xFD, 0xFD, 0xC5] ∧
    encodeBody (List.replicate 130 ⟨7, 7, 7, 255⟩) = [0xA7, 0x88, 0xFD, 0xFD, 0xC4]

/-- R207: two pixels of one slot evict each other: after the second has been consumed as a miss, the first is not encoded
as INDEX when it comes again, and takes the slot back. -/
def Obligations.IndexCollision : Prop :=
  (∀ (e : EncCtx) (P Q : Pixel) (between : List Pixel),
      PrevCached e.prev e.C → P ≠ Q → hash P = hash Q → cacheLookup Q e.C = false → P ∉ between →
        (selectChunk P (encodePixels between (encodePixel Q e))).kind ≠ .index ∧
          (encodePixel P (encodePixels between (encodePixel Q e))).Out =
            (flushRun (encodePixels between (encodePixel Q e))).Out ++
              encode (selectChunk P (encodePixels between (encodePixel Q e))) ∧
          cacheRead (hash P) (encodePixel P (encodePixels between (encodePixel Q e))).C = P) ∧
    encodeBody [⟨1, 0, 0, 255⟩, ⟨1, 64, 0, 255⟩, ⟨1, 0, 0, 255⟩, ⟨1, 64, 0, 255⟩] =
      [0x7A, 0xFE, 0x01, 0x40, 0x00, 0xFE, 0x01, 0x00, 0x00, 0xFE, 0x01, 0x40, 0x00]

/-! ### Reset, misuse, privacy and invariants (10_state.md, 60_exceptions.md, 70_reset_and_hazards.md) -/

/-- R250: `EncReset` from every state, before the first reset included. -/
def Obligations.EncResetEffect : Prop :=
  ∀ s : State, nextCommand s = .encReset →
    step s =
      .next
        { takeCommand s with
          encUp := true
          enc :=
            { prev := ⟨0, 0, 0, 255⟩, run := 0, C := (Vector.replicate 64 ⟨0, 0, 0, 0⟩).set 53 ⟨0, 0, 0, 255⟩,
              phase := .active, Out := [] } }

/-- R251, R223: `DecReset` from every state, before the first reset and after a fault included: it latches and resets, or
refuses `N = 0`, and in a finite build operands that do not fit, with InvalidArgument. Three clauses are the model's: that a
refusal keeps the old `N` and `In` (DEDUCED: notes/assumptions/5.md), that it counts as DEC's first reset command
(DESIGN CHOICE: notes/assumptions/6.md), and that the width of a finite build is the field `cntW` (DESIGN CHOICE:
notes/assumptions/8.md). -/
def Obligations.DecResetEffect : Prop :=
  ∀ (s : State) (N : Nat) (In : List Byte), nextCommand s = .decReset N In →
    let fits (n : Nat) : Prop := ∀ w, s.cntW = some w → n < 2 ^ w
    (N ≠ 0 → fits N → fits In.length →
      step s =
        .next
          { takeCommand s with
            decUp := true
            dec :=
              { prev := ⟨0, 0, 0, 255⟩, C := (Vector.replicate 64 ⟨0, 0, 0, 0⟩).set 53 ⟨0, 0, 0, 255⟩,
                cur := 0, opos := 0, phase := .active, err := .noFault, PxOut := [], N := N, In := In } }) ∧
      (N = 0 ∨ ¬ fits N ∨ ¬ fits In.length →
        ∃ t, step s = .next t ∧ t.dec.phase = .fault ∧ t.dec.err = .invalidArgument ∧ t.decUp = true ∧
          t.dec.N = s.dec.N ∧ t.dec.In = s.dec.In ∧ t.enc = s.enc ∧ t.encUp = s.encUp ∧
          t.host = s.host.tail)

/-- The state after reset holds the values of R38. That both reset commands have been issued, the operands of `DecReset`
(one pixel, an empty body), and the model's own fields are the model's choice: notes/assumptions/1.md, 3.md, 4.md, 6.md,
8.md. -/
def Obligations.ResetStateValues : Prop :=
  State.reset.enc.prev = ⟨0, 0, 0, 255⟩ ∧ State.reset.dec.prev = ⟨0, 0, 0, 255⟩ ∧ State.reset.enc.run = 0 ∧
    (∀ i : Slot, i ≠ 53 → cacheRead i State.reset.enc.C = ⟨0, 0, 0, 0⟩ ∧
      cacheRead i State.reset.dec.C = ⟨0, 0, 0, 0⟩) ∧
    cacheRead 53 State.reset.enc.C = ⟨0, 0, 0, 255⟩ ∧ cacheRead 53 State.reset.dec.C = ⟨0, 0, 0, 255⟩ ∧
    State.reset.dec.cur = 0 ∧ State.reset.dec.opos = 0 ∧ State.reset.enc.Out = [] ∧ State.reset.dec.PxOut = [] ∧
    State.reset.enc.phase = .active ∧ State.reset.dec.phase = .active ∧ State.reset.dec.err = .noFault ∧
    State.reset.dec.N = 1 ∧ State.reset.dec.In = [] ∧ State.reset.dec.blen = 0

/-- R261: a command outside the state in which it is defined has no step: the machine is stuck, by name. -/
def Obligations.MisuseIsStuck : Prop :=
  ∀ s : State,
    ((∃ P, nextCommand s = .encPixel P) ∨ nextCommand s = .encFinish →
      (s.encUp = false → step s = .fault .encBeforeReset) ∧
        (s.encUp = true → s.enc.phase ≠ .active → step s = .fault .encNotActive)) ∧
      (nextCommand s = .decStep →
        (s.decUp = false → step s = .fault .decBeforeReset) ∧
          (s.decUp = true → s.dec.phase ≠ .active → step s = .fault .decNotActive))

/-- R225, R252: only a reset command leaves DONE or FAULT: any other command that takes a step leaves the context of a unit
that has ended exactly as it was, `err` included. -/
def Obligations.OnlyAResetLeavesTheEnd : Prop :=
  ∀ s t : State, step s = .next t →
    (s.decUp = true → s.dec.phase ≠ .active → (∀ N In, nextCommand s ≠ .decReset N In) →
      t.dec = s.dec ∧ t.decUp = true) ∧
      (s.encUp = true → s.enc.phase ≠ .active → nextCommand s ≠ .encReset → t.enc = s.enc ∧ t.encUp = true)

/-- R21: contexts are private. A command of one unit runs the same whatever the other unit's context holds, and leaves that
context as it found it. -/
def Obligations.ContextsArePrivate : Prop :=
  ∀ (c : Command) (s t : State), runCommand c s = .next t →
    (c.isEnc = true → ∀ (d : DecCtx) (u : Bool) (n : Nat),
      runCommand c { s with dec := d, decUp := u, free := n } = .next { t with dec := d, decUp := u, free := n }) ∧
      (c.isEnc = false → ∀ (e : EncCtx) (u : Bool),
        runCommand c { s with enc := e, encUp := u } = .next { t with enc := e, encUp := u })

/-- R64: a command of ENC and one of DEC may run in either order with the same result: each order that answers a state
shows that the other order answers it too. -/
def Obligations.CommandsOfTheUnitsCommute : Prop :=
  ∀ (c c' : Command) (s u : State), c.isEnc = true → c'.isEnc = false →
    ((∃ t, runCommand c s = .next t ∧ runCommand c' t = .next u) ↔
      ∃ v, runCommand c' s = .next v ∧ runCommand c v = .next u)

/-- The state after reset meets the invariant. That it stands after both reset commands is the model's choice
(notes/assumptions/1.md and 6.md). -/
def Obligations.ResetMeetsInvariant : Prop := State.reset.Inv

/-- Every step of the block keeps the invariant: the run counter in [0, 61] (R24), cursor and output position within
their bounds and never wrapped (R29, R30, D8), the cache's slots owned (R128), `prev` in its slot (R200), the phases as
R35, R170 and R184 say. -/
def Obligations.StepKeepsInvariant : Prop := ∀ s t : State, s.Inv → step s = .next t → t.Inv

/-- R200: `C[HASH(prev)] == prev` after reset, after every command, and after every production, in both contexts; nothing is
claimed of the remains of a faulted decode (R224; notes/assumptions/4.md). -/
def Obligations.PrevStandsInItsSlot : Prop :=
  PrevCached EncCtx.reset.prev EncCtx.reset.C ∧
    (∀ N In, PrevCached (DecCtx.reset N In).prev (DecCtx.reset N In).C) ∧
    (∀ (p : Pixel) (s : State), PrevCached (produce p s).dec.prev (produce p s).dec.C) ∧
    ∀ s t : State, step s = .next t →
      ((s.encUp = true → PrevCached s.enc.prev s.enc.C) → t.encUp = true → PrevCached t.enc.prev t.enc.C) ∧
        ((s.decUp = true → s.dec.phase ≠ .fault → PrevCached s.dec.prev s.dec.C) →
          t.decUp = true → t.dec.phase ≠ .fault → PrevCached t.dec.prev t.dec.C)

/-- A chunk placed by `withFetchWord` is the one that the very next step runs, to completion and without a fault, from
every state (notes/assumptions/2.md, 16.md). -/
def Obligations.PlacedChunkRunsNext : Prop :=
  ∀ (s : State) (nbits w : Nat) (i : Instr), decodeTableWord nbits w = some i →
    ∃ t, exec i (s.withFetchWord nbits w) = .next t ∧ step (s.withFetchWord nbits w) = .next t ∧
      t.dec.phase = .active
end

