-- ==== Sys2Proof/Laws/Arith.lean ====
section
/-! SUPPORT. The integer functions of spec/00_scope.md R9 in terms of bit vectors, and the lanes of a 32-bit word
(40_be32_pack.md). -/

namespace Sys2Proof.Machine

theorem s8_eq_toInt (b : Byte) : s8 b = b.toInt := by
  have := b.isLt
  rw [BitVec.toInt_eq_toNat_cond]
  unfold s8
  split <;> split <;> omega

theorem s8_range (b : Byte) : -128 ≤ s8 b ∧ s8 b ≤ 127 := by
  have := b.isLt
  unfold s8
  split <;> omega

theorem delta_range (a b : Byte) : -128 ≤ delta a b ∧ delta a b ≤ 127 := s8_range _

theorem toNat_u8 (v : Int) : ((u8 v).toNat : Int) = v % 256 := by
  unfold u8
  rw [BitVec.toNat_ofInt]
  omega

/-- `delta(a, b)` differs from `a - b` by a multiple of 256. -/
theorem delta_mod (a b : Byte) : (delta a b - ((a.toNat : Int) - (b.toNat : Int))) % 256 = 0 := by
  have h := toNat_u8 ((a.toNat : Int) - (b.toNat : Int))
  unfold delta s8
  split <;> omega

theorem toNat_addDelta (c : Byte) (d : Int) : ((addDelta c d).toNat : Int) = ((c.toNat : Int) + d) % 256 := toNat_u8 _

/-- A difference in the signed 8-bit range is recovered from the component it moved to. -/
theorem delta_addDelta (c : Byte) (d : Int) (h1 : -128 ≤ d) (h2 : d ≤ 127) : delta (addDelta c d) c = d := by
  have h := delta_mod (addDelta c d) c
  have hr := delta_range (addDelta c d) c
  have ht := toNat_addDelta c d
  omega

theorem byte_ext {a b : Byte} (h : (a.toNat : Int) = (b.toNat : Int)) : a = b := BitVec.eq_of_toNat_eq (by omega)

/-- `delta` is the signed reading of the wrapped difference (R9). -/
theorem delta_eq_toInt (a b : Byte) : delta a b = (a - b).toInt := by
  unfold delta
  rw [s8_eq_toInt]
  congr 1
  apply byte_ext
  rw [toNat_u8, BitVec.toNat_sub]
  omega

/-- Moving a component by its wrapped difference reaches it exactly. -/
theorem addDelta_delta (a b : Byte) : addDelta b (delta a b) = a := by
  apply byte_ext
  have := delta_mod a b
  have := a.isLt
  rw [toNat_addDelta]
  omega

theorem toNat_lane (w : Word32) (k : Nat) : (w.extractLsb' k 8).toNat = w.toNat / 2 ^ k % 256 := by
  rw [BitVec.extractLsb'_toNat, Nat.shiftRight_eq_div_pow]

/-- The value of a word unpacked from four bytes, its weights as plain numerals. -/
theorem toNat_unpack32 (s : Vector Byte 4) :
    (unpack32 s).toNat = s[0].toNat * 16777216 + s[1].toNat * 65536 + s[2].toNat * 256 + s[3].toNat := by
  have := s[0].isLt
  have := s[1].isLt
  have := s[2].isLt
  have := s[3].isLt
  unfold unpack32
  rw [BitVec.toNat_ofNat]
  omega

end Sys2Proof.Machine
end

