-- ==== Sys2Proof/Laws/Cache.lean ====
section
/-! SUPPORT. The cache operations (spec/41_pixel_cache.md R123 to R128). -/

namespace Sys2Proof.Machine

@[simp] theorem cacheRead_cacheWrite_self (p : Pixel) (C : Cache) : cacheRead (hash p) (cacheWrite p C) = p := by
  simp [cacheRead, cacheWrite]

theorem cacheRead_cacheWrite (p : Pixel) (C : Cache) (i : Slot) :
    cacheRead i (cacheWrite p C) = if hash p = i then p else cacheRead i C := by
  simp only [cacheRead, cacheWrite, Fin.getElem_fin, Vector.getElem_set, Fin.ext_iff]

theorem cache_ext {C D : Cache} (h : ∀ i : Slot, cacheRead i C = cacheRead i D) : C = D :=
  Vector.ext fun i hi => h ⟨i, hi⟩

theorem cacheLookup_iff (p : Pixel) (C : Cache) : cacheLookup p C = true ↔ cacheRead (hash p) C = p := by
  simp [cacheLookup, cacheRead]

/-- Writing the pixel that the slot already holds changes nothing (R126). -/
theorem cacheWrite_of_cached (p : Pixel) (C : Cache) (h : cacheRead (hash p) C = p) : cacheWrite p C = C := by
  refine cache_ext fun i => ?_
  rw [cacheRead_cacheWrite]
  split
  · rename_i hi; rw [← hi, h]
  · rfl

/-- Several writes leave a slot alone that none of their pixels owns. -/
theorem cacheRead_foldl_cacheWrite (ps : List Pixel) (C : Cache) (k : Slot) (h : ∀ p ∈ ps, hash p ≠ k) :
    cacheRead k (ps.foldl (fun C p => cacheWrite p C) C) = cacheRead k C := by
  induction ps generalizing C with
  | nil => rfl
  | cons p ps ih =>
    rw [List.foldl_cons, ih _ (fun q hq => h q (List.mem_cons_of_mem _ hq)), cacheRead_cacheWrite, if_neg (h p (by simp))]

theorem slotsOwned_resetCache : SlotsOwned resetCache := fun _ => .inl rfl

theorem slotsOwned_cacheWrite (p : Pixel) (C : Cache) (h : SlotsOwned C) : SlotsOwned (cacheWrite p C) := by
  intro i
  rw [cacheRead_cacheWrite]
  split
  · rename_i hi; exact .inr hi
  · exact h i

theorem prevCached_reset : PrevCached Config.prevInit resetCache := by decide

theorem prevCached_cacheWrite (p : Pixel) (C : Cache) : PrevCached p (cacheWrite p C) := cacheRead_cacheWrite_self p C

end Sys2Proof.Machine
end

