-- ==== Sys2Proof/Laws/Coding.lean ====
section
/-! SUPPORT. Chunk bytes: lengths, and what decoding a sequence can answer (spec/30_encoding.md R90, R96). -/

namespace Sys2Proof

@[simp] theorem encode_length (i : Instr) : (encode i).length = i.length := by cases i <;> rfl

theorem instr_length_pos (i : Instr) : 1 ≤ i.length := by cases i <;> simp [Instr.length]

/-! ### Well-formed operands -/

theorem wf_diff_iff (dr dg db : Int) :
    (Instr.diff dr dg db).wf = true ↔ (-2 ≤ dr ∧ dr ≤ 1) ∧ (-2 ≤ dg ∧ dg ≤ 1) ∧ -2 ≤ db ∧ db ≤ 1 := by
  simp only [Instr.wf, inRange, Bool.and_eq_true, decide_eq_true_eq, and_assoc]

theorem wf_luma_iff (dg drg dbg : Int) :
    (Instr.luma dg drg dbg).wf = true ↔ (-32 ≤ dg ∧ dg ≤ 31) ∧ (-8 ≤ drg ∧ drg ≤ 7) ∧ -8 ≤ dbg ∧ dbg ≤ 7 := by
  simp only [Instr.wf, inRange, Bool.and_eq_true, decide_eq_true_eq, and_assoc]

theorem wf_run_iff (count : Nat) : (Instr.run count).wf = true ↔ 1 ≤ count ∧ count ≤ 62 := by
  rw [Instr.wf, Bool.and_eq_true, decide_eq_true_eq, decide_eq_true_eq]
  exact Iff.rfl

/-! ### The first byte -/

theorem bits_lt (b : Byte) (hi lo : Nat) : bits b hi lo < 2 ^ (hi - lo + 1) := Nat.mod_lt _ (Nat.two_pow_pos _)

theorem bits_tag (b : Byte) : bits b 7 6 = b.toNat / 64 := by
  have := b.isLt
  simp only [bits]
  omega

/-- The first-byte map on numbers (R88). -/
theorem kindOf_eq (b0 : Byte) :
    kindOf b0 =
      if b0.toNat < 64 then .index
      else if b0.toNat < 128 then .diff
      else if b0.toNat < 192 then .luma
      else if b0.toNat < 254 then .run
      else if b0.toNat = 254 then .rgb
      else .rgba := by
  have hlt := b0.isLt
  have e1 : b0 = 0xFE ↔ b0.toNat = 254 := BitVec.toNat_inj.symm
  have e2 : b0 = 0xFF ↔ b0.toNat = 255 := BitVec.toNat_inj.symm
  simp only [kindOf, bits_tag, e1, e2]
  generalize b0.toNat = n at hlt
  by_cases h1 : n = 254
  · subst h1; rfl
  by_cases h2 : n = 255
  · subst h2; rfl
  rw [if_neg h1, if_neg h2]
  rcases (by omega : n / 64 = 0 ∨ n / 64 = 1 ∨ n / 64 = 2 ∨ n / 64 = 3) with h | h | h | h <;> rw [h]
  · rw [if_pos (by omega)]
    rfl
  · rw [if_neg (by omega), if_pos (by omega)]
    rfl
  · rw [if_neg (by omega), if_neg (by omega), if_pos (by omega)]
    rfl
  · rw [if_neg (by omega), if_neg (by omega), if_neg (by omega), if_pos (by omega)]
    rfl

theorem kindOf_index {b0 : Byte} (h : b0.toNat < 64) : kindOf b0 = .index := by rw [kindOf_eq, if_pos h]

theorem kindOf_diff {b0 : Byte} (h : 64 ≤ b0.toNat) (h' : b0.toNat < 128) : kindOf b0 = .diff := by
  rw [kindOf_eq, if_neg (by omega), if_pos h']

theorem kindOf_luma {b0 : Byte} (h : 128 ≤ b0.toNat) (h' : b0.toNat < 192) : kindOf b0 = .luma := by
  rw [kindOf_eq, if_neg (by omega), if_neg (by omega), if_pos h']

theorem kindOf_run {b0 : Byte} (h : 192 ≤ b0.toNat) (h' : b0.toNat < 254) : kindOf b0 = .run := by
  rw [kindOf_eq, if_neg (by omega), if_neg (by omega), if_neg (by omega), if_pos h']

/-- A RUN byte is below the two 8-bit tags (R93). -/
theorem toNat_of_kindOf_run {b0 : Byte} (h : kindOf b0 = .run) : 192 ≤ b0.toNat ∧ b0.toNat < 254 := by
  rw [kindOf_eq] at h
  split at h
  · cases h
  split at h
  · cases h
  split at h
  · cases h
  split at h
  · omega
  split at h <;> cases h

/-- The encoding functions keep their values in a byte on well-formed operands. -/
theorem toNat_byteOf (v : Int) (h0 : 0 ≤ v) (h1 : v < 256) : ((byteOf v).toNat : Int) = v := by
  unfold byteOf
  rw [BitVec.toNat_ofInt]
  omega

/-- A byte is determined by the integer the encoding functions make it from. -/
theorem byteOf_eq {v : Int} {b : Byte} (h : v = (b.toNat : Int)) : byteOf v = b := by
  have := b.isLt
  apply BitVec.eq_of_toNat_eq
  have := toNat_byteOf v (by omega) (by omega)
  omega

theorem byteOf_natCast (n : Nat) : byteOf (n : Int) = BitVec.ofNat 8 n := by rw [byteOf, BitVec.ofInt_natCast]

/-- The byte of a RUN chunk (R82). -/
theorem encode_run (count : Nat) (h : 1 ≤ count) : encode (.run count) = [BitVec.ofNat 8 (0xC0 + (count - 1))] := by
  rw [← byteOf_natCast, encode]
  congr 2
  omega

theorem length_flatMap_encode (is : List Instr) : (is.flatMap encode).length = (is.map Instr.length).sum := by
  induction is <;> simp [*]

/-! ### Lengths and decoding -/

/-- The length by kind: R90 agrees with R80. -/
def Kind.length : Kind → Nat
  | .rgb => 4
  | .rgba => 5
  | .luma => 2
  | .index => 1
  | .diff => 1
  | .run => 1

theorem chunkLength_eq_kind (b0 : Byte) : chunkLength b0 = (kindOf b0).length := by
  unfold chunkLength kindOf
  by_cases h1 : b0 = 0xFE
  · rw [if_pos h1, if_pos h1]; rfl
  by_cases h2 : b0 = 0xFF
  · rw [if_neg h1, if_neg h1, if_pos h2, if_pos h2]; rfl
  rw [if_neg h1, if_neg h1, if_neg h2, if_neg h2]
  match bits b0 7 6 with
  | 0 => rfl
  | 1 => rfl
  | 2 => rfl
  | k + 3 => simp [Kind.length]

theorem chunkLength_pos (b0 : Byte) : 1 ≤ chunkLength b0 := by
  rw [chunkLength_eq_kind]; cases kindOf b0 <;> simp [Kind.length]

@[simp] theorem decode_nil : decode [] = .error .exhausted := rfl

/-- A sequence that holds the whole chunk decodes to it; the bytes after the chunk are handed back, and the chunk's own
bytes decode to the same chunk. -/
theorem decode_of_le (b0 : Byte) (t : List Byte) (h : chunkLength b0 ≤ t.length + 1) :
    ∃ i, decode (b0 :: t) = .ok (i, (b0 :: t).drop (chunkLength b0)) ∧
      decode ((b0 :: t).take (chunkLength b0)) = .ok (i, []) ∧ i.length = chunkLength b0 := by
  rw [chunkLength_eq_kind] at *
  cases hk : kindOf b0 <;> rw [hk] at h <;> simp only [Kind.length] at h ⊢
  case rgb =>
    match t, h with
    | r :: g :: b :: t, _ => exact ⟨.rgb r g b, by simp [decode, hk], by simp [decode, hk], rfl⟩
  case rgba =>
    match t, h with
    | r :: g :: b :: a :: t, _ => exact ⟨.rgba r g b a, by simp [decode, hk], by simp [decode, hk], rfl⟩
  case index => exact ⟨decodeIndex b0, by simp [decode, hk], by simp [decode, hk], rfl⟩
  case diff => exact ⟨decodeDiff b0, by simp [decode, hk], by simp [decode, hk], rfl⟩
  case luma =>
    match t, h with
    | b1 :: t, _ => exact ⟨decodeLuma b0 b1, by simp [decode, hk], by simp [decode, hk], rfl⟩
  case run => exact ⟨decodeRun b0, by simp [decode, hk], by simp [decode, hk], rfl⟩

/-- A sequence that ends inside the chunk is cut short. -/
theorem decode_of_lt (b0 : Byte) (t : List Byte) (h : t.length + 1 < chunkLength b0) :
    decode (b0 :: t) = .error .truncated := by
  rw [chunkLength_eq_kind] at h
  cases hk : kindOf b0 <;> rw [hk] at h <;> simp only [Kind.length] at h
  case rgb => match t, h with
    | [], _ | [_], _ | [_, _], _ => simp [decode, hk]
    | _ :: _ :: _ :: _, h => simp only [List.length_cons] at h; omega
  case rgba => match t, h with
    | [], _ | [_], _ | [_, _], _ | [_, _, _], _ => simp [decode, hk]
    | _ :: _ :: _ :: _ :: _, h => simp only [List.length_cons] at h; omega
  case luma => match t, h with
    | [], _ => simp [decode, hk]
    | _ :: _, h => simp at h
  all_goals omega

/-- Everything `decode` can answer with a chunk. -/
theorem decode_ok_inv {bs : List Byte} {i : Instr} {rest : List Byte} (h : decode bs = .ok (i, rest)) :
    ∃ b0 t, bs = b0 :: t ∧ i.length = chunkLength b0 ∧ i.length ≤ bs.length ∧ rest = bs.drop i.length ∧
      decode (bs.take i.length) = .ok (i, []) := by
  match bs, h with
  | b0 :: t, h =>
    by_cases hl : chunkLength b0 ≤ t.length + 1
    · obtain ⟨j, h1, h2, h3⟩ := decode_of_le b0 t hl
      rw [h1] at h
      cases h
      exact ⟨b0, t, rfl, h3, by simpa [h3] using hl, by rw [h3], by rw [h3]; exact h2⟩
    · rw [decode_of_lt b0 t (by omega)] at h
      cases h

/-- Bytes after a chunk do not change what it decodes to. -/
theorem decode_append {bs rest : List Byte} {i : Instr} (h : decode bs = .ok (i, rest)) (more : List Byte) :
    decode (bs ++ more) = .ok (i, rest ++ more) := by
  match bs, h with
  | b0 :: t, h =>
    cases hk : kindOf b0 <;> simp only [decode, hk, List.cons_append] at h ⊢
    case index | diff | run => cases h; rfl
    case luma | rgb | rgba => split at h <;> cases h; rfl

/-- Every decoded chunk represents at least one pixel (R82). -/
theorem pixels_pos_of_decode {bs rest : List Byte} {i : Instr} (h : decode bs = .ok (i, rest)) : 1 ≤ i.pixels := by
  match bs, h with
  | b0 :: t, h =>
    cases hk : kindOf b0 <;> simp only [decode, hk] at h
    case index | diff => cases h; exact Nat.le_refl 1
    case run => cases h; exact Nat.le_add_left 1 _
    case luma | rgb | rgba => split at h <;> cases h; exact Nat.le_refl 1

theorem pixels_pos_of_wf {i : Instr} (h : i.wf = true) : 1 ≤ i.pixels := by
  cases i with
  | run count => exact ((wf_run_iff count).1 h).1
  | rgb | rgba | index | diff | luma => exact Nat.le_refl 1

/-! ### Disassembly -/

/-- The bound of `disassembleUpTo` does not matter where it is at least the number of bytes. -/
theorem disassembleUpTo_bound (k j : Nat) (bs : List Byte) (hk : bs.length ≤ k) (hj : bs.length ≤ j) :
    disassembleUpTo k bs = disassembleUpTo j bs := by
  induction k generalizing j bs with
  | zero =>
    obtain rfl : bs = [] := List.eq_nil_of_length_eq_zero (by omega)
    cases j <;> rfl
  | succ k ih =>
    cases j with
    | zero =>
      obtain rfl : bs = [] := List.eq_nil_of_length_eq_zero (by omega)
      rfl
    | succ j =>
      simp only [disassembleUpTo]
      cases hd : decode bs with
      | error r => rfl
      | ok x =>
        obtain ⟨i, rest⟩ := x
        obtain ⟨b0, t, -, -, h3, h4, -⟩ := decode_ok_inv hd
        have := instr_length_pos i
        have hl : rest.length = bs.length - i.length := by rw [h4, List.length_drop]
        simp only [ih j rest (by omega) (by omega)]

/-- Disassembly peels off the first chunk (R96). -/
theorem disassemble_of_decode {bs rest : List Byte} {i : Instr} (h : decode bs = .ok (i, rest)) :
    disassemble bs = (i :: (disassemble rest).1, (disassemble rest).2) := by
  obtain ⟨b0, t, -, -, h3, h4, -⟩ := decode_ok_inv h
  have := instr_length_pos i
  have hl : rest.length = bs.length - i.length := by rw [h4, List.length_drop]
  unfold disassemble
  obtain ⟨k, hk⟩ : ∃ k, bs.length = k + 1 := ⟨bs.length - 1, by omega⟩
  rw [hk, disassembleUpTo, h]
  simp only [disassembleUpTo_bound k rest.length rest (by omega) (Nat.le_refl _)]

/-- Disassembly stops where no whole chunk is left (R96). -/
theorem disassemble_of_error {bs : List Byte} {r : DecodeReject} (h : decode bs = .error r) : disassemble bs = ([], bs) := by
  unfold disassemble
  cases bs.length with
  | zero => rfl
  | succ k => rw [disassembleUpTo, h]

end Sys2Proof
end

