-- ==== Sys2Proof/Laws/State.lean ====
section
/-! SUPPORT. The small lemmas of the state: each named update, field by field. -/

namespace Sys2Proof.Machine

/-! ### `produce` -/

@[simp] theorem produce_prev (p : Pixel) (s : State) : (produce p s).dec.prev = p := rfl
@[simp] theorem produce_C (p : Pixel) (s : State) : (produce p s).dec.C = cacheWrite p s.dec.C := rfl
@[simp] theorem produce_cur (p : Pixel) (s : State) : (produce p s).dec.cur = s.dec.cur := rfl
@[simp] theorem produce_opos (p : Pixel) (s : State) : (produce p s).dec.opos = s.dec.opos + 1 := rfl
@[simp] theorem produce_phase (p : Pixel) (s : State) : (produce p s).dec.phase = s.dec.phase := rfl
@[simp] theorem produce_err (p : Pixel) (s : State) : (produce p s).dec.err = s.dec.err := rfl
@[simp] theorem produce_PxOut (p : Pixel) (s : State) : (produce p s).dec.PxOut = s.dec.PxOut ++ [p] := rfl
@[simp] theorem produce_N (p : Pixel) (s : State) : (produce p s).dec.N = s.dec.N := rfl
@[simp] theorem produce_In (p : Pixel) (s : State) : (produce p s).dec.In = s.dec.In := rfl
@[simp] theorem produce_enc (p : Pixel) (s : State) : (produce p s).enc = s.enc := rfl
@[simp] theorem produce_encUp (p : Pixel) (s : State) : (produce p s).encUp = s.encUp := rfl
@[simp] theorem produce_decUp (p : Pixel) (s : State) : (produce p s).decUp = s.decUp := rfl
@[simp] theorem produce_cntW (p : Pixel) (s : State) : (produce p s).cntW = s.cntW := rfl
@[simp] theorem produce_host (p : Pixel) (s : State) : (produce p s).host = s.host := rfl
@[simp] theorem produce_free (p : Pixel) (s : State) : (produce p s).free = s.free := rfl

/-! ### `advance` -/

@[simp] theorem advance_prev (n : Nat) (s : State) : (advance n s).dec.prev = s.dec.prev := rfl
@[simp] theorem advance_C (n : Nat) (s : State) : (advance n s).dec.C = s.dec.C := rfl
@[simp] theorem advance_cur (n : Nat) (s : State) : (advance n s).dec.cur = s.dec.cur + n := rfl
@[simp] theorem advance_opos (n : Nat) (s : State) : (advance n s).dec.opos = s.dec.opos := rfl
@[simp] theorem advance_phase (n : Nat) (s : State) : (advance n s).dec.phase = s.dec.phase := rfl
@[simp] theorem advance_err (n : Nat) (s : State) : (advance n s).dec.err = s.dec.err := rfl
@[simp] theorem advance_PxOut (n : Nat) (s : State) : (advance n s).dec.PxOut = s.dec.PxOut := rfl
@[simp] theorem advance_N (n : Nat) (s : State) : (advance n s).dec.N = s.dec.N := rfl
@[simp] theorem advance_In (n : Nat) (s : State) : (advance n s).dec.In = s.dec.In := rfl
@[simp] theorem advance_enc (n : Nat) (s : State) : (advance n s).enc = s.enc := rfl
@[simp] theorem advance_encUp (n : Nat) (s : State) : (advance n s).encUp = s.encUp := rfl
@[simp] theorem advance_decUp (n : Nat) (s : State) : (advance n s).decUp = s.decUp := rfl
@[simp] theorem advance_cntW (n : Nat) (s : State) : (advance n s).cntW = s.cntW := rfl
@[simp] theorem advance_host (n : Nat) (s : State) : (advance n s).host = s.host := rfl
@[simp] theorem advance_free (n : Nat) (s : State) : (advance n s).free = s.free := rfl

/-! ### `raise`: the defined fields (R224); the remains have no lemma, since they have no defined value -/

@[simp] theorem raise_phase (c : ErrCode) (x : FaultInfo) (s : State) : (raise c x s).dec.phase = .fault := rfl
@[simp] theorem raise_err (c : ErrCode) (x : FaultInfo) (s : State) :
    (raise c x s).dec.err = if s.dec.err = .noFault then c else s.dec.err := rfl
@[simp] theorem raise_N (c : ErrCode) (x : FaultInfo) (s : State) : (raise c x s).dec.N = s.dec.N := rfl
@[simp] theorem raise_In (c : ErrCode) (x : FaultInfo) (s : State) : (raise c x s).dec.In = s.dec.In := rfl
@[simp] theorem raise_enc (c : ErrCode) (x : FaultInfo) (s : State) : (raise c x s).enc = s.enc := rfl
@[simp] theorem raise_encUp (c : ErrCode) (x : FaultInfo) (s : State) : (raise c x s).encUp = s.encUp := rfl
@[simp] theorem raise_decUp (c : ErrCode) (x : FaultInfo) (s : State) : (raise c x s).decUp = s.decUp := rfl
@[simp] theorem raise_cntW (c : ErrCode) (x : FaultInfo) (s : State) : (raise c x s).cntW = s.cntW := rfl
@[simp] theorem raise_host (c : ErrCode) (x : FaultInfo) (s : State) : (raise c x s).host = s.host := rfl

/-! ### `takeCommand` and the reset commands -/

@[simp] theorem takeCommand_enc (s : State) : (takeCommand s).enc = s.enc := rfl
@[simp] theorem takeCommand_dec (s : State) : (takeCommand s).dec = s.dec := rfl
@[simp] theorem takeCommand_encUp (s : State) : (takeCommand s).encUp = s.encUp := rfl
@[simp] theorem takeCommand_decUp (s : State) : (takeCommand s).decUp = s.decUp := rfl
@[simp] theorem takeCommand_cntW (s : State) : (takeCommand s).cntW = s.cntW := rfl
@[simp] theorem takeCommand_host (s : State) : (takeCommand s).host = s.host.tail := rfl
@[simp] theorem takeCommand_free (s : State) : (takeCommand s).free = s.free := rfl

@[simp] theorem encReset_enc (s : State) : (encReset s).enc = EncCtx.reset := rfl
@[simp] theorem encReset_dec (s : State) : (encReset s).dec = s.dec := rfl
@[simp] theorem encReset_encUp (s : State) : (encReset s).encUp = true := rfl
@[simp] theorem encReset_decUp (s : State) : (encReset s).decUp = s.decUp := rfl
@[simp] theorem encReset_cntW (s : State) : (encReset s).cntW = s.cntW := rfl
@[simp] theorem encReset_host (s : State) : (encReset s).host = s.host := rfl
@[simp] theorem encReset_free (s : State) : (encReset s).free = s.free := rfl

/-- Everything `decReset` can do (R251): refuse its operands, or latch them. -/
theorem decReset_cases (N : Nat) (In : List Byte) (s : State) :
    (∃ x, (N = 0 ∨ cntFits s.cntW N = false ∨ cntFits s.cntW In.length = false) ∧
      decReset N In s =
        raise .invalidArgument x { s with decUp := true, dec := { s.dec with err := .noFault } }) ∨
    (N ≠ 0 ∧ cntFits s.cntW N = true ∧ cntFits s.cntW In.length = true ∧
      decReset N In s = { s with decUp := true, dec := DecCtx.reset N In }) := by
  unfold decReset
  by_cases h0 : N = 0
  · exact .inl ⟨.zeroPixels, .inl h0, by simp [h0]⟩
  · by_cases h1 : cntFits s.cntW N = true
    · by_cases h2 : cntFits s.cntW In.length = true
      · exact .inr ⟨h0, h1, h2, by simp [h0, h1, h2]⟩
      · exact .inl ⟨.doesNotFit, .inr (.inr (by simpa using h2)), by simp [h0, h1, h2]⟩
    · exact .inl ⟨.doesNotFit, .inr (.inl (by simpa using h1)), by simp [h0, h1]⟩

/-! ### ENC's updates -/

@[simp] theorem emit_Out (v : List Byte) (e : EncCtx) : (emit v e).Out = e.Out ++ v := rfl
@[simp] theorem emit_prev (v : List Byte) (e : EncCtx) : (emit v e).prev = e.prev := rfl
@[simp] theorem emit_run (v : List Byte) (e : EncCtx) : (emit v e).run = e.run := rfl
@[simp] theorem emit_C (v : List Byte) (e : EncCtx) : (emit v e).C = e.C := rfl
@[simp] theorem emit_phase (v : List Byte) (e : EncCtx) : (emit v e).phase = e.phase := rfl

@[simp] theorem extendRun_prev (e : EncCtx) : (extendRun e).prev = e.prev := by unfold extendRun; split <;> rfl
@[simp] theorem extendRun_C (e : EncCtx) : (extendRun e).C = e.C := by unfold extendRun; split <;> rfl
@[simp] theorem extendRun_phase (e : EncCtx) : (extendRun e).phase = e.phase := by unfold extendRun; split <;> rfl

@[simp] theorem flushRun_prev (e : EncCtx) : (flushRun e).prev = e.prev := by unfold flushRun; split <;> rfl
@[simp] theorem flushRun_C (e : EncCtx) : (flushRun e).C = e.C := by unfold flushRun; split <;> rfl
@[simp] theorem flushRun_phase (e : EncCtx) : (flushRun e).phase = e.phase := by unfold flushRun; split <;> rfl
@[simp] theorem flushRun_run (e : EncCtx) : (flushRun e).run = 0 := by
  unfold flushRun runPending; split
  · rfl
  · simp_all

@[simp] theorem emitChunk_prev (P : Pixel) (e : EncCtx) : (emitChunk P e).prev = P := rfl
@[simp] theorem emitChunk_run (P : Pixel) (e : EncCtx) : (emitChunk P e).run = e.run := rfl
@[simp] theorem emitChunk_phase (P : Pixel) (e : EncCtx) : (emitChunk P e).phase = e.phase := rfl
@[simp] theorem emitChunk_C (P : Pixel) (e : EncCtx) :
    (emitChunk P e).C = if cacheLookup P e.C then e.C else cacheWrite P e.C := rfl
@[simp] theorem emitChunk_Out (P : Pixel) (e : EncCtx) :
    (emitChunk P e).Out = e.Out ++ encode (selectChunk P e) := rfl

@[simp] theorem finishEnc_Out (e : EncCtx) : (finishEnc e).Out = (flushRun e).Out := rfl
@[simp] theorem finishEnc_prev (e : EncCtx) : (finishEnc e).prev = e.prev := by simp [finishEnc]
@[simp] theorem finishEnc_run (e : EncCtx) : (finishEnc e).run = 0 := by simp [finishEnc]
@[simp] theorem finishEnc_C (e : EncCtx) : (finishEnc e).C = e.C := by simp [finishEnc]
@[simp] theorem finishEnc_phase (e : EncCtx) : (finishEnc e).phase = .done := rfl

end Sys2Proof.Machine
end

