-- ==== Sys2Proof/Laws/Decoder.lean ====
section
/-! SUPPORT. What DEC's shared operations can do, said once: production, fetch, execution, end check, `DecStep`
(spec/43_chunk_decoder.md). -/

namespace Sys2Proof.Machine

/-! ### Production -/

/-- Several pixels produced one after the other. -/
def produceAll (ps : List Pixel) (s : State) : State := ps.foldl (fun s p => produce p s) s

@[simp] theorem produceAll_nil (s : State) : produceAll [] s = s := rfl

@[simp] theorem produceAll_cons (p : Pixel) (ps : List Pixel) (s : State) :
    produceAll (p :: ps) s = produceAll ps (produce p s) := rfl

theorem produceAll_append (ps qs : List Pixel) (s : State) :
    produceAll (ps ++ qs) s = produceAll qs (produceAll ps s) := List.foldl_append

/-- Everything several productions do (R172): the pixels and the cache in order, `prev` the last of them, the rest as
it was. -/
theorem produceAll_eq (ps : List Pixel) (s : State) :
    produceAll ps s =
      { s with
        dec :=
          { s.dec with
            PxOut := s.dec.PxOut ++ ps
            opos := s.dec.opos + ps.length
            C := ps.foldl (fun C p => cacheWrite p C) s.dec.C
            prev := ps.getLastD s.dec.prev } } := by
  induction ps generalizing s with
  | nil => simp
  | cons p ps ih =>
    rw [produceAll_cons, ih]
    simp only [produce, List.length_cons, List.getLastD_cons, List.foldl_cons, List.append_assoc,
      List.singleton_append, Nat.add_assoc, Nat.add_comm 1]

/-- A run produces its pixel `count` times (R179). -/
theorem repeatPrev_eq_produceAll (count : Nat) (s : State) :
    repeatPrev count s = produceAll (List.replicate count s.dec.prev) s := by
  induction count generalizing s with
  | zero => rfl
  | succ k ih => rw [repeatPrev, ih]; rfl

theorem foldl_cacheWrite_replicate (count : Nat) (p : Pixel) (C : Cache) :
    (List.replicate count p).foldl (fun C p => cacheWrite p C) C = if count = 0 then C else cacheWrite p C := by
  induction count generalizing C with
  | zero => rfl
  | succ k ih =>
    rw [List.replicate_succ, List.foldl_cons, ih]
    split
    · simp
    · simp [cacheWrite_of_cached p (cacheWrite p C) (by simp)]

/-! ### Fetch -/

theorem memRead_of_le (d : DecCtx) (addr n : Nat) (h : addr + n ≤ d.blen) :
    memRead d addr n = some ((d.In.drop addr).take n) := if_pos h

theorem memRead_of_lt (d : DecCtx) (addr n : Nat) (h : d.blen < addr + n) : memRead d addr n = none :=
  if_neg (by omega)

/-- The fetch of R171 reads the chunk that decoding the rest of the body gives. -/
theorem fetchInstr_eq (d : DecCtx) :
    fetchInstr d = match decode (d.In.drop d.cur) with
      | .ok (i, _) => .ok i
      | .error r => .error r := by
  unfold fetchInstr fetch
  by_cases h0 : d.cur + 1 ≤ d.blen
  · rw [memRead_of_le d d.cur 1 h0]
    cases hd : d.In.drop d.cur with
    | nil =>
      have := congrArg List.length hd
      simp [DecCtx.blen] at this h0
      omega
    | cons b0 t =>
      have hlen : d.In.length - d.cur = t.length + 1 := by simpa using congrArg List.length hd
      simp only [List.take_succ_cons, List.take_zero]
      by_cases h1 : d.cur + chunkLength b0 ≤ d.blen
      · obtain ⟨i, hi, ht, -⟩ := decode_of_le b0 t (by unfold DecCtx.blen at h1; omega)
        rw [memRead_of_le d d.cur _ h1, hd]
        simp only [ht, hi]
      · rw [memRead_of_lt d d.cur _ (by omega), decode_of_lt b0 t (by unfold DecCtx.blen at *; omega)]
  · rw [memRead_of_lt d d.cur 1 (by omega)]
    have : d.In.drop d.cur = [] := List.drop_eq_nil_of_le (by unfold DecCtx.blen at h0; omega)
    rw [this]
    rfl

theorem fetchInstr_of_decode {d : DecCtx} {i : Instr} {rest : List Byte}
    (h : decode (d.In.drop d.cur) = .ok (i, rest)) : fetchInstr d = .ok i := by rw [fetchInstr_eq, h]

theorem fetchInstr_ok {d : DecCtx} {i : Instr} (h : fetchInstr d = .ok i) :
    decode (d.In.drop d.cur) = .ok (i, d.In.drop (d.cur + i.length)) ∧ d.cur + i.length ≤ d.blen := by
  rw [fetchInstr_eq] at h
  split at h
  · rename_i j rest hd
    cases h
    obtain ⟨b0, t, -, -, hle, hrest, -⟩ := decode_ok_inv hd
    have := instr_length_pos i
    simp at hle
    refine ⟨by rw [hd, hrest, List.drop_drop], by unfold DecCtx.blen; omega⟩
  · cases h

/-! ### Execution -/

/-- The pixels that a chunk produces from a context (R174 to R179). -/
def pixelsOf (i : Instr) (d : DecCtx) : List Pixel :=
  match i with
  | .rgb r g b => [⟨r, g, b, d.prev.a⟩]
  | .rgba r g b a => [⟨r, g, b, a⟩]
  | .index slot => [cacheRead slot d.C]
  | .diff dr dg db => [movedPixel d.prev dr dg db]
  | .luma dg drg dbg => [movedPixel d.prev (drg + dg) dg (dbg + dg)]
  | .run count => List.replicate count d.prev

@[simp] theorem pixelsOf_length (i : Instr) (d : DecCtx) : (pixelsOf i d).length = i.pixels := by
  cases i <;> simp [pixelsOf, Instr.pixels]

/-- The overrun of R179: a RUN that would carry `opos` past `N`. -/
def overruns (i : Instr) (d : DecCtx) : Prop := ∃ count, i = .run count ∧ d.N < d.opos + count

/-- What a chunk does where it does not overrun: its pixels, and the cursor past it. -/
def play (i : Instr) (s : State) : State := advance i.length (produceAll (pixelsOf i s.dec) s)

/-- Everything `play` does, field by field. -/
theorem play_eq (i : Instr) (s : State) :
    play i s =
      { s with
        dec :=
          { s.dec with
            PxOut := s.dec.PxOut ++ pixelsOf i s.dec
            opos := s.dec.opos + i.pixels
            C := (pixelsOf i s.dec).foldl (fun C p => cacheWrite p C) s.dec.C
            prev := (pixelsOf i s.dec).getLastD s.dec.prev
            cur := s.dec.cur + i.length } } := by
  rw [play, produceAll_eq, pixelsOf_length]
  rfl

@[simp] theorem play_PxOut (i : Instr) (s : State) : (play i s).dec.PxOut = s.dec.PxOut ++ pixelsOf i s.dec := by rw [play_eq]
@[simp] theorem play_opos (i : Instr) (s : State) : (play i s).dec.opos = s.dec.opos + i.pixels := by rw [play_eq]
@[simp] theorem play_cur (i : Instr) (s : State) : (play i s).dec.cur = s.dec.cur + i.length := by rw [play_eq]
@[simp] theorem play_phase (i : Instr) (s : State) : (play i s).dec.phase = s.dec.phase := by rw [play_eq]
@[simp] theorem play_err (i : Instr) (s : State) : (play i s).dec.err = s.dec.err := by rw [play_eq]
@[simp] theorem play_N (i : Instr) (s : State) : (play i s).dec.N = s.dec.N := by rw [play_eq]
@[simp] theorem play_In (i : Instr) (s : State) : (play i s).dec.In = s.dec.In := by rw [play_eq]
@[simp] theorem play_blen (i : Instr) (s : State) : (play i s).dec.blen = s.dec.blen := by rw [play_eq]; rfl
@[simp] theorem play_enc (i : Instr) (s : State) : (play i s).enc = s.enc := by rw [play_eq]
@[simp] theorem play_encUp (i : Instr) (s : State) : (play i s).encUp = s.encUp := by rw [play_eq]
@[simp] theorem play_decUp (i : Instr) (s : State) : (play i s).decUp = s.decUp := by rw [play_eq]
@[simp] theorem play_cntW (i : Instr) (s : State) : (play i s).cntW = s.cntW := by rw [play_eq]
@[simp] theorem play_host (i : Instr) (s : State) : (play i s).host = s.host := by rw [play_eq]
@[simp] theorem play_free (i : Instr) (s : State) : (play i s).free = s.free := by rw [play_eq]

theorem slotsOwned_produceAll (ps : List Pixel) (s : State) (h : SlotsOwned s.dec.C) :
    SlotsOwned (produceAll ps s).dec.C := by
  induction ps generalizing s with
  | nil => exact h
  | cons p ps ih => exact ih _ (slotsOwned_cacheWrite _ _ h)

theorem prevCached_produceAll (ps : List Pixel) (s : State) (h : PrevCached s.dec.prev s.dec.C) :
    PrevCached (produceAll ps s).dec.prev (produceAll ps s).dec.C := by
  induction ps generalizing s with
  | nil => exact h
  | cons p ps ih => exact ih _ (prevCached_cacheWrite _ _)

/-- A RUN keeps `prev` and the cache where `prev` stands in its slot (R182). -/
theorem play_run (count : Nat) (s : State) (h : PrevCached s.dec.prev s.dec.C) :
    (play (.run count) s).dec.prev = s.dec.prev ∧ (play (.run count) s).dec.C = s.dec.C := by
  rw [play_eq]
  simp only [pixelsOf, foldl_cacheWrite_replicate]
  constructor
  · cases count with
    | zero => rfl
    | succ k => simp [List.replicate_succ']
  · split
    · rfl
    · exact cacheWrite_of_cached _ _ h

theorem not_overruns_of_kind {i : Instr} {d : DecCtx} (h : i.kind ≠ .run) : ¬ overruns i d := by
  rintro ⟨count, rfl, -⟩
  exact h rfl

theorem not_overruns_of_le {i : Instr} {d : DecCtx} (h : d.opos + i.pixels ≤ d.N) : ¬ overruns i d := by
  rintro ⟨count, rfl, hlt⟩
  simp only [Instr.pixels] at h
  omega

/-- A chunk that does not overrun produces its pixels and moves the cursor by its length. -/
theorem exec_of_not_overruns (i : Instr) (s : State) (h : ¬ overruns i s.dec) : exec i s = .next (play i s) := by
  cases i with
  | run count =>
    have hle : ¬ s.dec.N < s.dec.opos + count := fun hlt => h ⟨count, rfl, hlt⟩
    simp only [exec, execRun, if_neg hle, repeatPrev_eq_produceAll, play, pixelsOf, Instr.length]
  | rgb | rgba | index | diff | luma => rfl

/-- A RUN that overruns raises DecodeLengthMismatch and produces nothing. -/
theorem exec_of_overruns (i : Instr) (s : State) (h : overruns i s.dec) :
    exec i s = .next (raise .decodeLengthMismatch .overrun s) := by
  obtain ⟨count, rfl, hlt⟩ := h
  simp only [exec, execRun, if_pos hlt]

/-- Everything an execution can do. -/
theorem exec_cases {i : Instr} {s t : State} (h : exec i s = .next t) :
    (overruns i s.dec ∧ t = raise .decodeLengthMismatch .overrun s) ∨ (¬ overruns i s.dec ∧ t = play i s) := by
  by_cases ho : overruns i s.dec
  · rw [exec_of_overruns i s ho] at h
    cases h
    exact .inl ⟨ho, rfl⟩
  · rw [exec_of_not_overruns i s ho] at h
    cases h
    exact .inr ⟨ho, rfl⟩

/-- Every chunk answers a next state: neither a fault nor a refusal of the model (R92). -/
theorem exec_next (i : Instr) (s : State) : ∃ t, exec i s = .next t := by
  by_cases ho : overruns i s.dec
  · exact ⟨_, exec_of_overruns i s ho⟩
  · exact ⟨_, exec_of_not_overruns i s ho⟩

/-! ### End check and `DecStep` -/

/-- Everything the end check can do (R180). -/
theorem endCheck_cases (s : State) :
    (¬ (s.dec.phase = .active ∧ s.dec.opos = s.dec.N) ∧ endCheck s = s) ∨
      (s.dec.phase = .active ∧ s.dec.opos = s.dec.N ∧ s.dec.cur = s.dec.blen ∧
        endCheck s = { s with dec := { s.dec with phase := .done } }) ∨
      (s.dec.phase = .active ∧ s.dec.opos = s.dec.N ∧ s.dec.cur ≠ s.dec.blen ∧
        endCheck s = raise .decodeLengthMismatch .trailing s) := by
  unfold endCheck
  by_cases h : s.dec.phase = .active ∧ s.dec.opos = s.dec.N
  · by_cases hc : s.dec.cur = s.dec.blen
    · exact .inr (.inl ⟨h.1, h.2, hc, by rw [if_pos h, if_pos hc]⟩)
    · exact .inr (.inr ⟨h.1, h.2, hc, by rw [if_pos h, if_neg hc]⟩)
  · exact .inl ⟨h, if_neg h⟩

theorem execAndCheck_of_exec {i : Instr} {s t : State} (h : exec i s = .next t) :
    execAndCheck i s = .next (endCheck t) := by
  unfold execAndCheck
  rw [h]

/-- Everything a `DecStep` can do. -/
theorem decStep_cases {s t : State} (h : decStep s = .next t) :
    s.decUp = true ∧ s.dec.phase = .active ∧
      ((∃ r, decode (s.dec.In.drop s.dec.cur) = .error r ∧ t = raiseFetch r s) ∨
        ∃ i u, fetchInstr s.dec = .ok i ∧ exec i s = .next u ∧ t = endCheck u) := by
  unfold decStep at h
  split at h
  · cases h
  rename_i hup
  split at h
  case isFalse => cases h
  rename_i hact
  refine ⟨by simpa using hup, hact, ?_⟩
  cases hf : fetchInstr s.dec with
  | ok i =>
    obtain ⟨u, hu⟩ := exec_next i s
    rw [hf] at h
    simp only [execAndCheck_of_exec hu] at h
    cases h
    exact .inr ⟨i, u, rfl, hu, rfl⟩
  | error r =>
    rw [hf] at h
    cases h
    refine .inl ⟨r, ?_, rfl⟩
    rw [fetchInstr_eq] at hf
    split at hf
    · cases hf
    · rename_i hd
      cases hf
      exact hd

/-- `DecStep` in its defined state, on a chunk that the body holds. -/
theorem decStep_of_fetch {s u : State} {i : Instr} (hup : s.decUp = true) (hact : s.dec.phase = .active)
    (hf : fetchInstr s.dec = .ok i) (hu : exec i s = .next u) : decStep s = .next (endCheck u) := by
  unfold decStep
  rw [if_neg (by simp [hup]), if_pos hact, hf]
  exact execAndCheck_of_exec hu

/-- `DecStep` in its defined state, where the body holds no chunk. -/
theorem decStep_of_error {s : State} {r : DecodeReject} (hup : s.decUp = true) (hact : s.dec.phase = .active)
    (hf : decode (s.dec.In.drop s.dec.cur) = .error r) : decStep s = .next (raiseFetch r s) := by
  have : fetchInstr s.dec = .error r := by rw [fetchInstr_eq, hf]
  unfold decStep
  rw [if_neg (by simp [hup]), if_pos hact, this]

/-- A `DecStep` leaves ENC, the host's list, the counters' width and the latched operands alone (R21, R32). -/
theorem decStep_frame {s t : State} (h : decStep s = .next t) :
    t.enc = s.enc ∧ t.encUp = s.encUp ∧ t.decUp = s.decUp ∧ t.cntW = s.cntW ∧ t.host = s.host ∧
      t.dec.N = s.dec.N ∧ t.dec.In = s.dec.In := by
  obtain ⟨-, -, ⟨r, -, rfl⟩ | ⟨i, u, -, hu, rfl⟩⟩ := decStep_cases h
  · cases r <;> exact ⟨rfl, rfl, rfl, rfl, rfl, rfl, rfl⟩
  · have hf : u.enc = s.enc ∧ u.encUp = s.encUp ∧ u.decUp = s.decUp ∧ u.cntW = s.cntW ∧ u.host = s.host ∧
        u.dec.N = s.dec.N ∧ u.dec.In = s.dec.In := by
      rcases exec_cases hu with ⟨-, rfl⟩ | ⟨-, rfl⟩
      · exact ⟨rfl, rfl, rfl, rfl, rfl, rfl, rfl⟩
      · exact ⟨by simp, by simp, by simp, by simp, by simp, by simp, by simp⟩
    rcases endCheck_cases u with ⟨-, h'⟩ | ⟨-, -, -, h'⟩ | ⟨-, -, -, h'⟩ <;> rw [h'] <;> exact hf

/-- Everything a `DecStep` of a decode in progress can do, by what the body holds at the cursor: it runs out of bytes, its
chunk overruns, it ends on the last pixel with or without bytes left over, or it goes on. -/
theorem decStep_outcomes {s : State} (hup : s.decUp = true) (hact : s.dec.phase = .active)
    (herr : s.dec.err = .noFault) (hlt : s.dec.opos < s.dec.N) :
    ∃ t, decStep s = .next t ∧
      ((∃ r, decode (s.dec.In.drop s.dec.cur) = .error r ∧ t.dec.phase = .fault ∧ t.dec.err = .decodeLengthMismatch) ∨
        ∃ i, decode (s.dec.In.drop s.dec.cur) = .ok (i, s.dec.In.drop (s.dec.cur + i.length)) ∧
          s.dec.cur + i.length ≤ s.dec.blen ∧
          ((s.dec.N < s.dec.opos + i.pixels ∧ t.dec.phase = .fault ∧ t.dec.err = .decodeLengthMismatch) ∨
            (s.dec.N = s.dec.opos + i.pixels ∧ s.dec.cur + i.length < s.dec.blen ∧ t.dec.phase = .fault ∧
              t.dec.err = .decodeLengthMismatch) ∨
            (s.dec.N = s.dec.opos + i.pixels ∧ s.dec.cur + i.length = s.dec.blen ∧
              t = { play i s with dec := { (play i s).dec with phase := .done } }) ∨
            (s.dec.opos + i.pixels < s.dec.N ∧ t = play i s))) := by
  cases hd : decode (s.dec.In.drop s.dec.cur) with
  | error r =>
    exact ⟨_, decStep_of_error hup hact hd, .inl ⟨r, rfl, by cases r <;> rfl, by cases r <;> simp [raiseFetch, herr]⟩⟩
  | ok x =>
    obtain ⟨i, rest⟩ := x
    have hf := fetchInstr_of_decode hd
    obtain ⟨h1, h2⟩ := fetchInstr_ok hf
    rw [hd] at h1
    have hpx := pixels_pos_of_decode hd
    cases h1
    by_cases ho : overruns i s.dec
    · refine ⟨_, decStep_of_fetch hup hact hf (exec_of_overruns i s ho), .inr ⟨i, rfl, h2, .inl ?_⟩⟩
      obtain ⟨count, rfl, hc⟩ := ho
      exact ⟨hc, by simp [endCheck], by simp [endCheck, herr]⟩
    · have hle : s.dec.opos + i.pixels ≤ s.dec.N := by
        cases i with
        | run count => exact Nat.le_of_not_lt fun hh => ho ⟨count, rfl, hh⟩
        | rgb | rgba | index | diff | luma => exact hlt
      refine ⟨_, decStep_of_fetch hup hact hf (exec_of_not_overruns i s ho), .inr ⟨i, rfl, h2, .inr ?_⟩⟩
      have e1 := play_opos i s
      have e2 := play_cur i s
      have e3 := play_N i s
      have e4 := play_blen i s
      have e5 := (play_phase i s).trans hact
      rcases endCheck_cases (play i s) with ⟨h, h'⟩ | ⟨-, h, hc, h'⟩ | ⟨-, h, hc, h'⟩
      · exact .inr (.inr ⟨by have := not_and.1 h e5; omega, h'⟩)
      · exact .inr (.inl ⟨by omega, by omega, h'⟩)
      · exact .inl ⟨by omega, by omega, by rw [h']; rfl, by rw [h']; simp [herr]⟩

/-! ### What the body holds at the cursor, by the first byte -/

theorem drop_of_getElem? {bs : List Byte} {k : Nat} {b0 : Byte} (h : bs[k]? = some b0) :
    bs.drop k = b0 :: bs.drop (k + 1) := by
  obtain ⟨hk, rfl⟩ := List.getElem?_eq_some_iff.1 h
  exact List.drop_eq_getElem_cons hk

theorem decode_at_end {d : DecCtx} (h : d.blen ≤ d.cur) : decode (d.In.drop d.cur) = .error .exhausted := by
  rw [List.drop_eq_nil_of_le h]
  rfl

theorem decode_at_truncated {d : DecCtx} {b0 : Byte} (h0 : d.In[d.cur]? = some b0)
    (h : d.blen < d.cur + chunkLength b0) : decode (d.In.drop d.cur) = .error .truncated := by
  obtain ⟨hk, -⟩ := List.getElem?_eq_some_iff.1 h0
  rw [drop_of_getElem? h0]
  apply decode_of_lt
  unfold DecCtx.blen at h
  rw [List.length_drop]
  omega

theorem decode_at_whole {d : DecCtx} {b0 : Byte} (h0 : d.In[d.cur]? = some b0)
    (h : d.cur + chunkLength b0 ≤ d.blen) :
    ∃ i, decode (d.In.drop d.cur) = .ok (i, d.In.drop (d.cur + i.length)) ∧ i.length = chunkLength b0 ∧
      decode ((d.In.drop d.cur).take (chunkLength b0)) = .ok (i, []) := by
  obtain ⟨hk, -⟩ := List.getElem?_eq_some_iff.1 h0
  obtain ⟨i, h1, h2, h3⟩ := decode_of_le b0 (d.In.drop (d.cur + 1)) (by
    unfold DecCtx.blen at h
    rw [List.length_drop]
    omega)
  rw [← drop_of_getElem? h0] at h1 h2
  exact ⟨i, by rw [h1, List.drop_drop, h3], h3, h2⟩

end Sys2Proof.Machine
end

