-- ==== Sys2Proof/Laws/Encoder.lean ====
section
/-! SUPPORT. What ENC's shared operations can do, said once: the run counter, the decision order, `EncPixel` and
`EncFinish` (spec/42_chunk_encoder.md). -/

namespace Sys2Proof.Machine

/-- Everything step 1 can do (R136). -/
theorem extendRun_cases (e : EncCtx) :
    (e.run + 1 = 62 ∧ extendRun e = { e with Out := e.Out ++ encode (.run 62), run := 0 }) ∨
      (e.run + 1 ≠ 62 ∧ extendRun e = { e with run := e.run + 1 }) := by
  unfold extendRun Config.runMax
  by_cases h : e.run + 1 = 62
  · exact .inl ⟨h, if_pos h⟩
  · exact .inr ⟨h, if_neg h⟩

/-- Everything the flush can do (R137, R150). -/
theorem flushRun_cases (e : EncCtx) :
    (e.run = 0 ∧ flushRun e = e) ∨
      (0 < e.run ∧ flushRun e = { e with Out := e.Out ++ encode (.run e.run), run := 0 }) := by
  unfold flushRun runPending
  by_cases h : 0 < e.run
  · exact .inr ⟨h, by simp [h, emit]⟩
  · exact .inl ⟨by omega, by simp [h]⟩

theorem inRange_iff (x lo hi : Int) : inRange x lo hi = true ↔ lo ≤ x ∧ x ≤ hi := by simp [inRange]

theorem fitsDiff_iff (dr dg db : Int) :
    fitsDiff dr dg db = true ↔ (-2 ≤ dr ∧ dr ≤ 1) ∧ (-2 ≤ dg ∧ dg ≤ 1) ∧ -2 ≤ db ∧ db ≤ 1 := by
  simp only [fitsDiff, Bool.and_eq_true, inRange_iff, and_assoc]

theorem fitsLuma_iff (dr dg db : Int) :
    fitsLuma dr dg db = true ↔
      (-32 ≤ dg ∧ dg ≤ 31) ∧ (-8 ≤ dr - dg ∧ dr - dg ≤ 7) ∧ -8 ≤ db - dg ∧ db - dg ≤ 7 := by
  simp only [fitsLuma, Bool.and_eq_true, inRange_iff, and_assoc]

/-- Everything steps 4 to 6 can select (R141 to R145). -/
theorem selectMiss_cases (P prev : Pixel) :
    (P.a ≠ prev.a ∧ selectMiss P prev = .rgba P.r P.g P.b P.a) ∨
      (P.a = prev.a ∧ fitsDiff (delta P.r prev.r) (delta P.g prev.g) (delta P.b prev.b) = true ∧
        selectMiss P prev = .diff (delta P.r prev.r) (delta P.g prev.g) (delta P.b prev.b)) ∨
      (P.a = prev.a ∧ fitsDiff (delta P.r prev.r) (delta P.g prev.g) (delta P.b prev.b) = false ∧
        fitsLuma (delta P.r prev.r) (delta P.g prev.g) (delta P.b prev.b) = true ∧
        selectMiss P prev =
          .luma (delta P.g prev.g) (delta P.r prev.r - delta P.g prev.g) (delta P.b prev.b - delta P.g prev.g)) ∨
      (P.a = prev.a ∧ fitsDiff (delta P.r prev.r) (delta P.g prev.g) (delta P.b prev.b) = false ∧
        fitsLuma (delta P.r prev.r) (delta P.g prev.g) (delta P.b prev.b) = false ∧
        selectMiss P prev = .rgb P.r P.g P.b) := by
  unfold selectMiss
  by_cases ha : P.a = prev.a
  · cases hd : fitsDiff (delta P.r prev.r) (delta P.g prev.g) (delta P.b prev.b)
    · cases hl : fitsLuma (delta P.r prev.r) (delta P.g prev.g) (delta P.b prev.b) <;> simp [ha, hd, hl]
    · simp [ha, hd]
  · simp [ha]

/-- Everything `EncPixel` can do (R138): extend the run, or flush it and emit a chunk for the pixel. -/
theorem encodePixel_cases (P : Pixel) (e : EncCtx) :
    (P = e.prev ∧ encodePixel P e = extendRun e) ∨ (P ≠ e.prev ∧ encodePixel P e = emitChunk P (flushRun e)) := by
  unfold encodePixel
  by_cases h : P = e.prev
  · exact .inl ⟨h, if_pos h⟩
  · exact .inr ⟨h, if_neg h⟩

@[simp] theorem encodePixel_phase (P : Pixel) (e : EncCtx) : (encodePixel P e).phase = e.phase := by
  rcases encodePixel_cases P e with ⟨-, h⟩ | ⟨-, h⟩ <;> simp [h]

@[simp] theorem encodePixel_prev (P : Pixel) (e : EncCtx) : (encodePixel P e).prev = P := by
  rcases encodePixel_cases P e with ⟨rfl, h⟩ | ⟨-, h⟩ <;> simp [h]

@[simp] theorem encodePixels_nil (e : EncCtx) : encodePixels [] e = e := rfl

@[simp] theorem encodePixels_cons (P : Pixel) (Px : List Pixel) (e : EncCtx) :
    encodePixels (P :: Px) e = encodePixels Px (encodePixel P e) := rfl

theorem encodePixels_append (Px Qx : List Pixel) (e : EncCtx) :
    encodePixels (Px ++ Qx) e = encodePixels Qx (encodePixels Px e) := List.foldl_append

/-- A command that ENC answers only in ACTIVE answers there. -/
theorem whenEncActive_of_active (f : EncCtx → EncCtx) (s : State) (hup : s.encUp = true)
    (hact : s.enc.phase = .active) : whenEncActive f s = .next { s with enc := f s.enc } := by
  unfold whenEncActive
  rw [if_neg (by simp [hup]), if_pos hact]

/-- Everything such a command can do where it answers. -/
theorem whenEncActive_cases {f : EncCtx → EncCtx} {s t : State} (h : whenEncActive f s = .next t) :
    s.encUp = true ∧ s.enc.phase = .active ∧ t = { s with enc := f s.enc } := by
  unfold whenEncActive at h
  split at h
  · cases h
  rename_i hup
  split at h
  · rename_i hact
    cases h
    exact ⟨by simpa using hup, hact, rfl⟩
  · cases h

/-! ### Equations -/

/-- The flush as one record update (R137). -/
theorem flushRun_eq (e : EncCtx) :
    flushRun e =
      { e with
        run := 0
        Out := e.Out ++ if 0 < e.run then [BitVec.ofNat 8 (0xC0 + (e.run - 1))] else [] } := by
  rcases flushRun_cases e with ⟨h, h'⟩ | ⟨h, h'⟩ <;> rw [h']
  · rw [if_neg (by omega), List.append_nil, ← h]
  · rw [if_pos h, encode_run _ h]

/-- The cache after steps 3 to 6: written, or already holding the pixel, which is the same (R126). -/
theorem emitChunk_C_eq (P : Pixel) (e : EncCtx) : (emitChunk P e).C = cacheWrite P e.C := by
  rw [emitChunk_C]
  split
  · rename_i hl
    exact (cacheWrite_of_cached _ _ ((cacheLookup_iff _ _).1 hl)).symm
  · rfl

/-- ENC's cache changes by the write of a pixel other than `prev`, and by nothing else (R140). -/
theorem encodePixel_C (P : Pixel) (e : EncCtx) :
    (encodePixel P e).C = if P = e.prev then e.C else cacheWrite P e.C := by
  unfold encodePixel
  split
  · exact extendRun_C e
  · rw [emitChunk_C_eq, flushRun_C]

@[simp] theorem selectChunk_flushRun (P : Pixel) (e : EncCtx) : selectChunk P (flushRun e) = selectChunk P e := by
  unfold selectChunk
  simp

theorem selectMiss_kind (P prev : Pixel) : (selectMiss P prev).kind ≠ .run := by
  rcases selectMiss_cases P prev with ⟨-, h⟩ | ⟨-, -, h⟩ | ⟨-, -, -, h⟩ | ⟨-, -, -, h⟩ <;> rw [h] <;> simp [Instr.kind]

/-- Steps 3 to 6 never select RUN. -/
theorem selectChunk_kind (P : Pixel) (e : EncCtx) : (selectChunk P e).kind ≠ .run := by
  unfold selectChunk
  split
  · simp [Instr.kind]
  · exact selectMiss_kind _ _

theorem selectChunk_pixels (P : Pixel) (e : EncCtx) : (selectChunk P e).pixels = 1 := by
  have := selectChunk_kind P e
  cases h : selectChunk P e <;> simp_all [Instr.kind, Instr.pixels]

/-- The operands that ENC computes are in range (R149). -/
theorem selectChunk_wf (P : Pixel) (e : EncCtx) : (selectChunk P e).wf = true := by
  unfold selectChunk
  split
  · rfl
  · rcases selectMiss_cases P e.prev with ⟨-, h⟩ | ⟨-, hd, h⟩ | ⟨-, -, hl, h⟩ | ⟨-, -, -, h⟩ <;> rw [h]
    · rfl
    · exact hd
    · exact hl
    · rfl

/-! ### The chunks that ENC emits -/

/-- The RUN chunk of a pending run, if there is one. -/
def flushed (e : EncCtx) : List Instr := if 0 < e.run then [.run e.run] else []

/-- The chunks that one `EncPixel` appends. -/
def emitted (P : Pixel) (e : EncCtx) : List Instr :=
  if P = e.prev then if e.run + 1 = 62 then [.run 62] else [] else flushed e ++ [selectChunk P e]

/-- The chunks that the `EncPixel` commands of a sequence append. -/
def emittedAll : List Pixel → EncCtx → List Instr
  | [], _ => []
  | P :: Px, e => emitted P e ++ emittedAll Px (encodePixel P e)

/-- The chunks that a sequence and the `EncFinish` after it append. -/
def chunksOf (Px : List Pixel) (e : EncCtx) : List Instr := emittedAll Px e ++ flushed (encodePixels Px e)

@[simp] theorem emittedAll_nil (e : EncCtx) : emittedAll [] e = [] := rfl

@[simp] theorem emittedAll_cons (P : Pixel) (Px : List Pixel) (e : EncCtx) :
    emittedAll (P :: Px) e = emitted P e ++ emittedAll Px (encodePixel P e) := rfl

theorem emittedAll_append (Px Qx : List Pixel) (e : EncCtx) :
    emittedAll (Px ++ Qx) e = emittedAll Px e ++ emittedAll Qx (encodePixels Px e) := by
  induction Px generalizing e with
  | nil => rfl
  | cons P Px ih => rw [List.cons_append, emittedAll_cons, ih, emittedAll_cons, List.append_assoc]; rfl

theorem chunksOf_append (Px Qx : List Pixel) (e : EncCtx) :
    chunksOf (Px ++ Qx) e = emittedAll Px e ++ chunksOf Qx (encodePixels Px e) := by
  unfold chunksOf
  rw [emittedAll_append, encodePixels_append, List.append_assoc]

theorem flushRun_Out (e : EncCtx) : (flushRun e).Out = e.Out ++ (flushed e).flatMap encode := by
  unfold flushed
  rcases flushRun_cases e with ⟨h1, h2⟩ | ⟨h1, h2⟩ <;> simp [h1, h2]

theorem encodePixel_Out (P : Pixel) (e : EncCtx) : (encodePixel P e).Out = e.Out ++ (emitted P e).flatMap encode := by
  unfold encodePixel emitted
  split
  · rcases extendRun_cases e with ⟨h1, h2⟩ | ⟨h1, h2⟩ <;> simp [h1, h2]
  · rw [emitChunk_Out, selectChunk_flushRun, flushRun_Out]
    simp

theorem encodePixels_Out (Px : List Pixel) (e : EncCtx) :
    (encodePixels Px e).Out = e.Out ++ (emittedAll Px e).flatMap encode := by
  induction Px generalizing e with
  | nil => simp
  | cons P Px ih => rw [encodePixels_cons, ih, encodePixel_Out]; simp

/-- A body is the encoding of its chunks (R153). -/
theorem encodeBody_eq (Px : List Pixel) : encodeBody Px = (chunksOf Px EncCtx.reset).flatMap encode := by
  unfold encodeBody chunksOf
  rw [finishEnc_Out, flushRun_Out, encodePixels_Out, List.flatMap_append]
  rfl

/-- The run counter stays within its bound (R24). -/
theorem encodePixel_run_le (P : Pixel) (e : EncCtx) (h : e.run ≤ 61) : (encodePixel P e).run ≤ 61 := by
  rcases encodePixel_cases P e with ⟨-, h1⟩ | ⟨-, h1⟩ <;> rw [h1]
  · rcases extendRun_cases e with ⟨h1, h2⟩ | ⟨h1, h2⟩ <;> rw [h2] <;> simp
    omega
  · simp

theorem encodePixels_run_le (Px : List Pixel) (e : EncCtx) (h : e.run ≤ 61) : (encodePixels Px e).run ≤ 61 := by
  induction Px generalizing e with
  | nil => exact h
  | cons P Px ih => exact ih _ (encodePixel_run_le P e h)

theorem flushed_wf (e : EncCtx) (h : e.run ≤ 61) : ∀ i ∈ flushed e, i.wf = true := by
  intro i hi
  unfold flushed at hi
  split at hi
  · obtain rfl := List.mem_singleton.1 hi
    rw [wf_run_iff]
    omega
  · cases hi

theorem emitted_wf (P : Pixel) (e : EncCtx) (h : e.run ≤ 61) : ∀ i ∈ emitted P e, i.wf = true := by
  intro i hi
  unfold emitted at hi
  split at hi
  · split at hi
    · obtain rfl := List.mem_singleton.1 hi
      rfl
    · cases hi
  · rcases List.mem_append.1 hi with hi | hi
    · exact flushed_wf e h i hi
    · obtain rfl := List.mem_singleton.1 hi
      exact selectChunk_wf P e

theorem emittedAll_wf (Px : List Pixel) (e : EncCtx) (h : e.run ≤ 61) : ∀ i ∈ emittedAll Px e, i.wf = true := by
  induction Px generalizing e with
  | nil => simp
  | cons P Px ih =>
    intro i hi
    rcases List.mem_append.1 hi with hi | hi
    · exact emitted_wf P e h i hi
    · exact ih _ (encodePixel_run_le P e h) i hi

theorem chunksOf_wf (Px : List Pixel) (e : EncCtx) (h : e.run ≤ 61) : ∀ i ∈ chunksOf Px e, i.wf = true := by
  intro i hi
  rcases List.mem_append.1 hi with hi | hi
  · exact emittedAll_wf Px e h i hi
  · exact flushed_wf _ (encodePixels_run_le Px e h) i hi

theorem emitted_pixels (P : Pixel) (e : EncCtx) :
    ((emitted P e).map Instr.pixels).sum + (encodePixel P e).run = e.run + 1 := by
  unfold emitted encodePixel
  split
  · rcases extendRun_cases e with ⟨h1, h2⟩ | ⟨h1, h2⟩ <;> simp [h1, h2, Instr.pixels]
  · simp only [List.map_append, List.sum_append, List.map_cons, List.map_nil, selectChunk_pixels, flushed]
    simp
    split
    · simp [Instr.pixels]
    · simp
      omega

theorem emittedAll_pixels (Px : List Pixel) (e : EncCtx) :
    ((emittedAll Px e).map Instr.pixels).sum + (encodePixels Px e).run = e.run + Px.length := by
  induction Px generalizing e with
  | nil => simp
  | cons P Px ih =>
    have h1 := emitted_pixels P e
    have h2 := ih (encodePixel P e)
    rw [emittedAll_cons, List.map_append, List.sum_append, List.length_cons, encodePixels_cons]
    omega

/-- The chunks of a sequence represent the pending run and the sequence (R52). -/
theorem chunksOf_pixels (Px : List Pixel) (e : EncCtx) :
    ((chunksOf Px e).map Instr.pixels).sum = e.run + Px.length := by
  have h := emittedAll_pixels Px e
  unfold chunksOf flushed
  rw [List.map_append, List.sum_append]
  split
  · simp [Instr.pixels]
    omega
  · simp
    omega

end Sys2Proof.Machine
end

