-- ==== Sys2Proof/Laws/PerInstr.lean ====
section
/-! SUPPORT. Statements about every chunk as syntax, one lemma per constructor (LAWS.json). -/

namespace Sys2Proof.Laws.EncodeLength

/-- The encoding has the length of the chunk's kind (spec/30_encoding.md R80), one to five bytes, and for a well-formed
chunk its first byte says both the kind and the length (R88, R90). -/
def Statement (i : Instr) : Prop :=
  (encode i).length = i.length ∧ 1 ≤ i.length ∧ i.length ≤ 5 ∧
    (i.wf = true → ∃ b0 t, encode i = b0 :: t ∧ kindOf b0 = i.kind ∧ chunkLength b0 = i.length)

theorem of_kind {i : Instr} {b0 : Byte} {t : List Byte} (he : encode i = b0 :: t) (hk : kindOf b0 = i.kind) :
    Statement i := by
  refine ⟨encode_length i, instr_length_pos i, by cases i <;> simp [Instr.length], fun _ => ⟨b0, t, he, hk, ?_⟩⟩
  rw [chunkLength_eq_kind, hk]
  cases i <;> rfl

theorem of_not_wf {i : Instr} (h : i.wf ≠ true) : Statement i :=
  ⟨encode_length i, instr_length_pos i, by cases i <;> simp [Instr.length], fun hw => absurd hw h⟩

theorem rgb (r g b : Byte) : Statement (.rgb r g b) := of_kind rfl rfl

theorem rgba (r g b a : Byte) : Statement (.rgba r g b a) := of_kind rfl rfl

theorem index (i : Slot) : Statement (.index i) := by
  have h := toNat_byteOf (i.val : Int) (by omega) (by omega)
  exact of_kind rfl (kindOf_index (b0 := byteOf (i.val : Int)) (by omega))

theorem diff (dr dg db : Int) : Statement (.diff dr dg db) := by
  by_cases hw : (Instr.diff dr dg db).wf = true
  · have hr := (wf_diff_iff dr dg db).1 hw
    have h := toNat_byteOf (0x40 + 16 * (dr + 2) + 4 * (dg + 2) + (db + 2)) (by omega) (by omega)
    exact of_kind rfl (kindOf_diff (b0 := byteOf (0x40 + 16 * (dr + 2) + 4 * (dg + 2) + (db + 2))) (by omega) (by omega))
  · exact of_not_wf hw

theorem luma (dg drg dbg : Int) : Statement (.luma dg drg dbg) := by
  by_cases hw : (Instr.luma dg drg dbg).wf = true
  · have hr := (wf_luma_iff dg drg dbg).1 hw
    have h := toNat_byteOf (0x80 + (dg + 32)) (by omega) (by omega)
    exact of_kind rfl (kindOf_luma (b0 := byteOf (0x80 + (dg + 32))) (by omega) (by omega))
  · exact of_not_wf hw

theorem run (count : Nat) : Statement (.run count) := by
  by_cases hw : (Instr.run count).wf = true
  · have hr := (wf_run_iff count).1 hw
    have h := toNat_byteOf (0xC0 + ((count : Int) - 1)) (by omega) (by omega)
    exact of_kind rfl (kindOf_run (b0 := byteOf (0xC0 + ((count : Int) - 1))) (by omega) (by omega))
  · exact of_not_wf hw

end Sys2Proof.Laws.EncodeLength
end

