-- ==== Sys2Proof/Laws/Step.lean ====
section
/-! SUPPORT. One step is one command of the host: the step, command by command. -/

namespace Sys2Proof.Machine

theorem step_eq (s : State) : step s = runCommand (nextCommand s) (takeCommand s) := rfl

theorem step_of_command {s : State} {c : Command} (h : nextCommand s = c) : step s = runCommand c (takeCommand s) := by
  rw [step_eq, h]

@[simp] theorem nextCommand_nil {s : State} (h : s.host = []) : nextCommand s = .decStep := by simp [nextCommand, h]

theorem nextCommand_cons {s : State} {c : Command} {cs : List Command} (h : s.host = c :: cs) :
    nextCommand s = c ∧ (takeCommand s).host = cs := by simp [nextCommand, h]

theorem takeCommand_of_nil {s : State} (h : s.host = []) : takeCommand s = s := by
  unfold takeCommand
  rw [h, List.tail_nil, ← h]

/-- A `DecStep` that DEC answers, as a step. -/
theorem step_of_decReady {s : State} (h : DecReady s) : step s = decStep (takeCommand s) := step_of_command h.1

/-- Every `DecStep` in its defined state answers a next state. -/
theorem decStep_next {s : State} (hup : s.decUp = true) (hact : s.dec.phase = .active) : ∃ t, decStep s = .next t := by
  unfold decStep
  rw [if_neg (by simp [hup]), if_pos hact]
  split
  · rename_i i _
    obtain ⟨u, hu⟩ := exec_next i s
    exact ⟨_, execAndCheck_of_exec hu⟩
  · exact ⟨_, rfl⟩

/-! ### Commands of ENC, and several steps -/

theorem step_of_encPixelReady {s : State} {P : Pixel} (h : EncReady (.encPixel P) s) :
    step s = .next { takeCommand s with enc := encodePixel P s.enc } := by
  rw [step_of_command h.1]
  exact whenEncActive_of_active (encodePixel P) (takeCommand s) h.2.1 h.2.2

theorem step_of_encFinishReady {s : State} (h : EncReady .encFinish s) :
    step s = .next { takeCommand s with enc := finishEnc s.enc } := by
  rw [step_of_command h.1]
  exact whenEncActive_of_active finishEnc (takeCommand s) h.2.1 h.2.2

theorem step_of_no_command {s : State} (h : s.host = []) : step s = decStep s := by
  rw [step_of_command (nextCommand_nil h), takeCommand_of_nil h]
  rfl

@[simp] theorem runSteps_zero (s : State) : runSteps 0 s = .next s := rfl

/-- One more step before the rest of a run. -/
theorem runSteps_succ {s t : State} (k : Nat) (h : step s = .next t) : runSteps (k + 1) s = runSteps k t := by
  have h' : Sys2Proof.core.step s = .next t := h
  have := Host.Core.run.eq_def Sys2Proof.core (k + 1) s
  simp only [h'] at this
  exact this

/-! ### `DecStep` while ACTIVE -/

theorem decodeWhileActive_succ (k : Nat) {s t : State} (hact : s.dec.phase = .active) (h : decStep s = .next t) :
    decodeWhileActive (k + 1) s = decodeWhileActive k t := by rw [decodeWhileActive, if_pos hact, h]

theorem decodeWhileActive_stop (k : Nat) {s : State} (h : s.dec.phase ≠ .active) : decodeWhileActive k s = s := by
  cases k with
  | zero => rfl
  | succ k => rw [decodeWhileActive, if_neg h]

/-- A `DecReset` of at least one pixel, from the state after reset. -/
theorem decReset_reset (N : Nat) (In : List Byte) (h : 1 ≤ N) :
    decReset N In State.reset = { State.reset with dec := DecCtx.reset N In } := by
  unfold decReset
  rw [if_neg (by omega)]
  rfl

end Sys2Proof.Machine
end

