-- ==== Sys2Proof/Laws/Simulation.lean ====
section
/-! SUPPORT. DEC on the chunks that ENC emits: the two contexts pixel by pixel (spec/44_laws.md R201, R202). -/

namespace Sys2Proof.Machine

/-- Several chunks played one after the other, none of them overrunning. -/
def playAll (is : List Instr) (s : State) : State := is.foldl (fun s i => play i s) s

@[simp] theorem playAll_nil (s : State) : playAll [] s = s := rfl

@[simp] theorem playAll_cons (i : Instr) (is : List Instr) (s : State) : playAll (i :: is) s = playAll is (play i s) := rfl

theorem playAll_append (is js : List Instr) (s : State) : playAll (is ++ js) s = playAll js (playAll is s) :=
  List.foldl_append

@[simp] theorem playAll_phase (is : List Instr) (s : State) : (playAll is s).dec.phase = s.dec.phase := by
  induction is generalizing s <;> simp [*]

@[simp] theorem playAll_N (is : List Instr) (s : State) : (playAll is s).dec.N = s.dec.N := by
  induction is generalizing s <;> simp [*]

@[simp] theorem playAll_In (is : List Instr) (s : State) : (playAll is s).dec.In = s.dec.In := by
  induction is generalizing s <;> simp [*]

@[simp] theorem playAll_decUp (is : List Instr) (s : State) : (playAll is s).decUp = s.decUp := by
  induction is generalizing s <;> simp [*]

@[simp] theorem playAll_host (is : List Instr) (s : State) : (playAll is s).host = s.host := by
  induction is generalizing s <;> simp [*]

@[simp] theorem playAll_cur (is : List Instr) (s : State) :
    (playAll is s).dec.cur = s.dec.cur + (is.map Instr.length).sum := by
  induction is generalizing s <;> simp [*, Nat.add_assoc]

@[simp] theorem playAll_opos (is : List Instr) (s : State) :
    (playAll is s).dec.opos = s.dec.opos + (is.map Instr.pixels).sum := by
  induction is generalizing s <;> simp [*, Nat.add_assoc]

/-- A `DecStep` whose chunk fits the pixels missing: the chunk is played and the end is checked. -/
theorem decStep_of_decode {s : State} {i : Instr} {rest : List Byte} (hup : s.decUp = true)
    (hact : s.dec.phase = .active) (hd : decode (s.dec.In.drop s.dec.cur) = .ok (i, rest))
    (hN : s.dec.opos + i.pixels ≤ s.dec.N) : decStep s = .next (endCheck (play i s)) :=
  decStep_of_fetch hup hact (fetchInstr_of_decode hd) (exec_of_not_overruns i s (not_overruns_of_le hN))

/-- The two contexts hold the same `prev` and cache, with `prev` in its slot. -/
structure InStep (s : State) (e : EncCtx) : Prop where
  prev : s.dec.prev = e.prev
  C : s.dec.C = e.C
  cached : PrevCached e.prev e.C

theorem movedPixel_delta (P prev : Pixel) (h : P.a = prev.a) :
    movedPixel prev (delta P.r prev.r) (delta P.g prev.g) (delta P.b prev.b) = P := by
  unfold movedPixel
  rw [addDelta_delta, addDelta_delta, addDelta_delta, ← h]

/-- A miss chunk produces the pixel it was selected for. -/
theorem pixelsOf_selectMiss (P : Pixel) (d : DecCtx) : pixelsOf (selectMiss P d.prev) d = [P] := by
  rcases selectMiss_cases P d.prev with ⟨-, h⟩ | ⟨ha, -, h⟩ | ⟨ha, -, -, h⟩ | ⟨ha, -, -, h⟩ <;> rw [h]
  · rfl
  · simp only [pixelsOf, movedPixel_delta P d.prev ha]
  · simp only [pixelsOf, Int.sub_add_cancel, movedPixel_delta P d.prev ha]
  · simp only [pixelsOf, ← ha]

theorem pixelsOf_selectChunk (P : Pixel) (e : EncCtx) (d : DecCtx) (hp : d.prev = e.prev) (hC : d.C = e.C) :
    pixelsOf (selectChunk P e) d = [P] := by
  unfold selectChunk
  split
  · rename_i hl
    simp only [pixelsOf, hC, (cacheLookup_iff _ _).1 hl]
  · rw [← hp]
    exact pixelsOf_selectMiss P d

theorem inStep_play_selectChunk {s : State} {e : EncCtx} (P : Pixel) (h : InStep s e) :
    (play (selectChunk P e) s).dec.prev = P ∧ (play (selectChunk P e) s).dec.C = cacheWrite P e.C ∧
      (play (selectChunk P e) s).dec.PxOut = s.dec.PxOut ++ [P] := by
  unfold play
  rw [pixelsOf_selectChunk P e _ h.prev h.C]
  exact ⟨rfl, by simp [h.C], rfl⟩

theorem inStep_playAll_flushed {s : State} {e : EncCtx} (h : InStep s e) :
    InStep (playAll (flushed e) s) e ∧
      (playAll (flushed e) s).dec.PxOut = s.dec.PxOut ++ List.replicate e.run e.prev := by
  unfold flushed
  split
  · obtain ⟨h1, h2⟩ := play_run e.run s (by rw [h.prev, h.C]; exact h.cached)
    exact ⟨⟨h1.trans h.prev, h2.trans h.C, h.cached⟩, by simp [pixelsOf, h.prev]⟩
  · rename_i h0
    exact ⟨h, by simp [show e.run = 0 by omega]⟩

/-- One `EncPixel`, and its chunks played by DEC: the contexts stay in step, and the pixels produced and the run still
pending make up the pixels consumed. -/
theorem inStep_encodePixel {s : State} {e : EncCtx} (P : Pixel) (h : InStep s e) :
    InStep (playAll (emitted P e) s) (encodePixel P e) ∧
      (playAll (emitted P e) s).dec.PxOut ++ List.replicate (encodePixel P e).run P =
        s.dec.PxOut ++ List.replicate e.run e.prev ++ [P] := by
  by_cases hP : P = e.prev
  · unfold emitted encodePixel
    rw [if_pos hP, if_pos hP]
    rcases extendRun_cases e with ⟨h1, h2⟩ | ⟨h1, h2⟩
    · rw [if_pos h1, h2]
      obtain ⟨g1, g2⟩ := play_run 62 s (by rw [h.prev, h.C]; exact h.cached)
      refine ⟨⟨g1.trans h.prev, g2.trans h.C, h.cached⟩, ?_⟩
      simp only [playAll_cons, playAll_nil, play_PxOut, pixelsOf, h.prev, hP]
      rw [← h1, List.replicate_succ']
      simp
    · rw [if_neg h1, h2]
      refine ⟨⟨h.prev, h.C, h.cached⟩, ?_⟩
      simp only [hP, List.replicate_succ', playAll_nil, List.append_assoc]
  · unfold emitted encodePixel
    rw [if_neg hP, if_neg hP, playAll_append]
    obtain ⟨g1, g2⟩ := inStep_playAll_flushed h
    obtain ⟨k1, k2, k3⟩ := inStep_play_selectChunk P g1
    refine ⟨⟨k1, by rw [emitChunk_C_eq, flushRun_C]; exact k2,
      by rw [emitChunk_C_eq, flushRun_C]; exact prevCached_cacheWrite _ _⟩, ?_⟩
    simp only [emitChunk_run, flushRun_run, List.replicate_zero, List.append_nil]
    rw [← g2]
    exact k3

/-- The same for a sequence of pixels. -/
theorem inStep_encodePixels {s : State} {e : EncCtx} (Px : List Pixel) (h : InStep s e) :
    InStep (playAll (emittedAll Px e) s) (encodePixels Px e) ∧
      (playAll (emittedAll Px e) s).dec.PxOut ++
          List.replicate (encodePixels Px e).run (encodePixels Px e).prev =
        s.dec.PxOut ++ List.replicate e.run e.prev ++ Px := by
  induction Px generalizing e s with
  | nil => exact ⟨h, by simp⟩
  | cons P Px ih =>
    obtain ⟨h1, h2⟩ := inStep_encodePixel P h
    obtain ⟨h3, h4⟩ := ih h1
    rw [emittedAll_cons, playAll_append, encodePixels_cons]
    exact ⟨h3, by rw [h4, encodePixel_prev, h2]; simp⟩

theorem inStep_reset (N : Nat) (In : List Byte) (s : State) (h : s.dec = DecCtx.reset N In) :
    InStep s EncCtx.reset := by
  refine ⟨?_, ?_, prevCached_reset⟩ <;> rw [h] <;> rfl

end Sys2Proof.Machine
end

