-- ==== Sys2Proof/Tests/Slice0.lean ====
section
/-! SUPPORT. The model's own tests, their expected values from spec/95_test_vectors.md (the vector's name stands in each
comment), and one witness for the hypotheses of every statement that has some. -/

namespace Sys2Proof.Tests

open Sys2Proof.Machine

/-! ### WellFormed refuses each ill-formed term (30_encoding.md R95) -/

theorem test_wf_diff_dr_low : (Instr.diff (-3) 0 0).wf = false := by decide
theorem test_wf_diff_dr_high : (Instr.diff 2 0 0).wf = false := by decide
theorem test_wf_diff_dg_low : (Instr.diff 0 (-3) 0).wf = false := by decide
theorem test_wf_diff_dg_high : (Instr.diff 0 2 0).wf = false := by decide
theorem test_wf_diff_db_low : (Instr.diff 0 0 (-3)).wf = false := by decide
theorem test_wf_diff_db_high : (Instr.diff 0 0 2).wf = false := by decide
theorem test_wf_luma_dg_low : (Instr.luma (-33) 0 0).wf = false := by decide
theorem test_wf_luma_dg_high : (Instr.luma 32 0 0).wf = false := by decide
theorem test_wf_luma_drg_low : (Instr.luma 0 (-9) 0).wf = false := by decide
theorem test_wf_luma_drg_high : (Instr.luma 0 8 0).wf = false := by decide
theorem test_wf_luma_dbg_low : (Instr.luma 0 0 (-9)).wf = false := by decide
theorem test_wf_luma_dbg_high : (Instr.luma 0 0 8).wf = false := by decide
theorem test_wf_run_zero : (Instr.run 0).wf = false := by decide
/-- A RUN of 63 would be the byte of RGB (R93). -/
theorem test_wf_run_63 : (Instr.run 63).wf = false := by decide
theorem test_assemble_refuses_run_63 : assemble [.run 1, .run 63] = none := by decide
theorem test_parse_refuses_component_256 : parseLine ("RGB", [0, 256, 0]) = none := by decide
theorem test_parse_refuses_slot_64 : parseLine ("INDEX", [64]) = none := by decide
theorem test_parse_refuses_run_63 : parseLine ("RUN", [63]) = none := by decide
theorem test_parse_refuses_operand_count : parseLine ("DIFF", [0, 0]) = none := by decide
theorem test_parse_diff : parseLine ("DIFF", [1, -2, 0]) = some (.diff 1 (-2) 0) := by decide

/-! ### Words written out from the encodings of 30_encoding.md, R82 to R87, for every constructor -/

/-- E3: 11 111101, count 62. -/
theorem test_decode_run : decode [0b11111101] = .ok (.run 62, []) := rfl
/-- E5: 00 110101, slot 53. -/
theorem test_decode_index : decode [0b00110101] = .ok (.index 53, []) := rfl
/-- E18: 01 11 00 10, fields 3, 0, 2. -/
theorem test_decode_diff : decode [0b01110010] = .ok (.diff 1 (-2) 0, []) := rfl
/-- E13: 10 100101, 0101 0100, fields 37, 5, 4. -/
theorem test_decode_luma : decode [0b10100101, 0b01010100] = .ok (.luma 5 (-3) (-4), []) := rfl
/-- E15: 11111110 and three raw bytes. -/
theorem test_decode_rgb : decode [0b11111110, 0xFF, 0xFE, 0xFD] = .ok (.rgb 255 254 253, []) := rfl
/-- E16: 11111111 and four raw bytes; a byte after the chunk is left. -/
theorem test_decode_rgba : decode [0b11111111, 1, 2, 3, 4, 9] = .ok (.rgba 1 2 3 4, [9]) := rfl
theorem test_decode_luma_truncated : decode [0xA0] = .error .truncated := rfl
theorem test_decode_exhausted : decode [] = .error .exhausted := rfl
/-- The opcode table's numbering: the first byte in bits 7 to 0, the second in bits 15 to 8. -/
theorem test_table_word_luma : decodeTableWord 16 0x54A5 = some (.luma 5 (-3) (-4)) := by decide
/-- A row of which the table gives the first byte only: the operand bytes are zeros. -/
theorem test_table_word_rgb : decodeTableWord 8 0xFE = some (.rgb 0 0 0) := by decide
theorem test_encode_diff : encode (.diff 1 (-2) 0) = [0x72] := by decide
theorem test_encode_luma : encode (.luma (-32) (-8) (-8)) = [0x80, 0x00] := by decide
theorem test_encode_run : encode (.run 62) = [0xFD] := by decide
theorem test_encode_index : encode (.index 63) = [0x3F] := by decide

/-! ### Units: PACK32, HASH, the cache -/

/-- K4. -/
theorem test_pack32 : pack32 0x12345678 = #v[0x12, 0x34, 0x56, 0x78] := by decide
/-- K8. -/
theorem test_unpack32 : unpack32 #v[0x71, 0x6F, 0x69, 0x66] = 0x716F6966 := by decide
/-- K6. -/
theorem test_word_signed : wordSigned 0x80000000 = -2147483648 := by decide
/-- K7. -/
theorem test_word_of_signed : wordOfSigned (-1) = 0xFFFFFFFF := by decide
/-- The pixel on a word port of K8's table. -/
theorem test_word_of_pixel : wordOfPixel ⟨10, 20, 30, 255⟩ = 0x0A141EFF := by decide
/-- H3. -/
theorem test_hash_white : Machine.hash ⟨255, 255, 255, 255⟩ = 38 := by decide
/-- H13. -/
theorem test_hash_alpha : Machine.hash ⟨12, 25, 31, 128⟩ = 58 := by decide
/-- Q8: no valid bits. -/
theorem test_cache_evicts_zero : cacheLookup ⟨0, 0, 0, 0⟩ (cacheWrite ⟨0, 0, 0, 128⟩ resetCache) = false := by decide

/-! ### One step of DEC: two tests a chunk kind -/

/-- A decode that `DecReset(N, In)` has just started. -/
def decoding (N : Nat) (In : List Byte) : State := { State.reset with dec := DecCtx.reset N In }

/-- A decode under way: the pixel last produced is `prev`. -/
def decodingFrom (prev : Pixel) (N : Nat) (In : List Byte) : State := produce prev (decoding (N + 1) In)

/-- The next state, where there is one. -/
def next? : Host.Outcome State Fault Refusal → Option State
  | .next t => some t
  | .fault _ => none
  | .refused _ => none

/-- What the tests look at after a step that did not fault. -/
def seen (o : Host.Outcome State Fault Refusal) : Option (Pixel × Nat × Nat × DecPhase) :=
  (next? o).map fun t => (t.dec.prev, t.dec.cur, t.dec.opos, t.dec.phase)

/-- The code and phase after a fault. -/
def faultSeen (o : Host.Outcome State Fault Refusal) : Option (DecPhase × Nat) :=
  (next? o).map fun t => (t.dec.phase, t.dec.err.code)

/-- X9's first chunk. -/
theorem test_step_rgb : seen (step (decoding 2 [0xFE, 0x00, 0x00, 0xFF, 0x41])) = some (⟨0, 0, 255, 255⟩, 4, 1, .active) := by
  decide
/-- X10's second chunk: RGB keeps the alpha 4. -/
theorem test_step_rgb_alpha :
    (seen (exec (.rgb 9 8 7) (decodingFrom ⟨1, 2, 3, 4⟩ 1 []))).map Prod.fst = some ⟨9, 8, 7, 4⟩ := by decide
/-- X10's first chunk. -/
theorem test_step_rgba :
    seen (step (decoding 2 [0xFF, 0x01, 0x02, 0x03, 0x04, 0xFE, 0x09, 0x08, 0x07])) = some (⟨1, 2, 3, 4⟩, 5, 1, .active) := by
  decide
/-- P2's step 4: the pixel's own slot is written. -/
theorem test_step_rgba_cache :
    (next? (exec (.rgba 10 20 30 128) (decoding 1 []))).map (fun t => cacheRead 20 t.dec.C) = some ⟨10, 20, 30, 128⟩ := by
  decide
/-- X2: INDEX of a slot never written gives the zero pixel, alpha 0. -/
theorem test_step_index : seen (step (decoding 1 [0x3F])) = some (⟨0, 0, 0, 0⟩, 1, 1, .done) := by decide
/-- X3. -/
theorem test_step_index_start : seen (step (decoding 1 [0x35])) = some (⟨0, 0, 0, 255⟩, 1, 1, .done) := by decide
/-- X5: wraparound below 0. -/
theorem test_step_diff : seen (step (decoding 1 [0x40])) = some (⟨254, 254, 254, 255⟩, 1, 1, .done) := by decide
/-- P2's step 2: three different fields. -/
theorem test_step_diff_fields : seen (step (decoding 1 [0x79])) = some (⟨1, 0, 255, 255⟩, 1, 1, .done) := by decide
/-- X7. -/
theorem test_step_luma : seen (step (decoding 1 [0x80, 0x00])) = some (⟨216, 224, 216, 255⟩, 2, 1, .done) := by decide
/-- P2's step 8: red and blue move by their field plus dg. -/
theorem test_step_luma_fields :
    (seen (exec (.luma 5 (-3) (-4)) (decodingFrom ⟨10, 20, 30, 128⟩ 1 []))).map Prod.fst = some ⟨12, 25, 31, 128⟩ := by
  decide
/-- P5's second decode, first step. -/
theorem test_step_run : seen (step (decoding 4 [0xC2, 0xC0])) = some (⟨0, 0, 0, 255⟩, 1, 3, .active) := by decide
/-- F8: a run is not clipped. -/
theorem test_step_run_overrun : faultSeen (step (decoding 61 [0xFD])) = some (.fault, 3) := by decide

/-! ### Faults and resets (60_exceptions.md R222, R223) -/

/-- F1. -/
theorem test_fault_zero_pixels : faultSeen (.next (decReset 0 [0xC0] State.reset)) = some (.fault, 1) := by decide
/-- F2. -/
theorem test_fault_exhausted : faultSeen (step (decoding 1 [])) = some (.fault, 3) := by decide
/-- F6. -/
theorem test_fault_truncated : faultSeen (step (decoding 1 [0xFF, 0x01, 0x02, 0x03])) = some (.fault, 3) := by decide
/-- F10. -/
theorem test_fault_trailing : faultSeen (step (decoding 1 [0xC0, 0xC0])) = some (.fault, 3) := by decide

/-! ### One command of ENC -/

/-- `Out` after one `EncPixel` from reset. -/
def outOf (P : Pixel) : List Byte := (encodePixel P EncCtx.reset).Out

/-- A2: INDEX carries the alpha change. -/
theorem test_enc_index : outOf ⟨0, 0, 0, 0⟩ = [0x00] := by decide
/-- A8. -/
theorem test_enc_diff : outOf ⟨1, 254, 0, 255⟩ = [0x72] := by decide
/-- A10: just outside DIFF. -/
theorem test_enc_luma : outOf ⟨253, 0, 0, 255⟩ = [0xA0, 0x58] := by decide
/-- A17: just outside LUMA. -/
theorem test_enc_rgb : outOf ⟨247, 0, 0, 255⟩ = [0xFE, 0xF7, 0x00, 0x00] := by decide
/-- A24: only alpha changed. -/
theorem test_enc_rgba : outOf ⟨0, 0, 0, 254⟩ = [0xFF, 0x00, 0x00, 0x00, 0xFE] := by decide
/-- A1: nothing before `EncFinish`, then RUN 1. -/
theorem test_enc_run : outOf Config.start = [] ∧ (finishEnc (encodePixel Config.start EncCtx.reset)).Out = [0xC0] := by decide

/-! ### The row's two host functions -/

theorem test_fetch_word_luma :
    seen (step (State.reset.withFetchWord 16 0x54A5)) = some (⟨2, 5, 1, 255⟩, 2, 1, .active) := by decide
theorem test_fetch_word_run :
    seen (step (State.reset.withFetchWord 8 0xFD)) = some (⟨0, 0, 0, 255⟩, 1, 62, .active) := by decide

/-! ### Witnesses: one or more for the hypotheses of each statement, in the order of the statements -/

/-- An encode under way, the next command being `c`. -/
def encoding (run : Nat) (c : Command) : State :=
  { State.reset with enc := { EncCtx.reset with run := run }, host := [c] }

/-- A decode under way with two pixels produced, at byte 1 of the body. -/
def midDecode (N : Nat) (In : List Byte) : State := advance 1 (repeatPrev 2 (decoding N In))

theorem witness_DecodeInvertsEncode : (Instr.luma 31 7 (-8)).wf = true := by decide

theorem witness_DisassemblyTotalUniqueInverse :
    (∀ i ∈ [Instr.run 62, .diff 1 1 1], i.wf = true) ∧ decode [0xFF, 0x01] = .error .truncated ∧
      assemble [.run 62, .diff 1 1 1] = some [0xFD, 0x7F] ∧ (disassemble [0xFD, 0x7F]).2 = [] := by
  refine ⟨by decide, rfl, by decide, by decide⟩

/-- The ends of each range of R88. -/
theorem witness_FirstByteMap :
    (0x00 : Byte).toNat ≤ 0x3F ∧ (0x3F : Byte).toNat ≤ 0x3F ∧ 0x40 ≤ (0x40 : Byte).toNat ∧ (0x7F : Byte).toNat ≤ 0x7F ∧
      0x80 ≤ (0x80 : Byte).toNat ∧ (0xBF : Byte).toNat ≤ 0xBF ∧ 0xC0 ≤ (0xC0 : Byte).toNat ∧
      (0xFD : Byte).toNat ≤ 0xFD := by decide

theorem witness_FirstByteMap_ends :
    kindOf 0x3F = .index ∧ kindOf 0x40 = .diff ∧ kindOf 0x7F = .diff ∧ kindOf 0x80 = .luma ∧ kindOf 0xBF = .luma ∧
      kindOf 0xC0 = .run ∧ kindOf 0xFD = .run ∧ kindOf 0xFE = .rgb ∧ kindOf 0xFF = .rgba := by decide

theorem witness_DispatchOrderMatchesTable :
    (0xFD : Byte) ≠ 0xFE ∧ (0xFD : Byte) ≠ 0xFF ∧ (0xFD : Byte).toNat / 64 = 3 ∧ (0xBF : Byte).toNat / 64 = 2 ∧
      (0x7F : Byte).toNat / 64 = 1 ∧ (0x3F : Byte).toNat / 64 = 0 := by decide

theorem witness_ChunkLengthFromFirstByte :
    chunkLength 0xFE ≤ [1, 2, (3 : Byte)].length + 1 ∧ [1, (2 : Byte)].length + 1 < chunkLength 0xFE ∧
      (0xBF : Byte).toNat / 64 = 2 ∧ (0xC0 : Byte).toNat / 64 ≠ 2 := by decide

theorem witness_ChunkFormats_run : 1 ≤ 1 ∧ 1 ≤ 62 ∧ 62 ≤ 62 ∧ 0xC0 ≤ (0xFD : Byte).toNat ∧ (0xFD : Byte).toNat ≤ 0xFD := by
  decide

theorem witness_ChunkFormats_fields :
    (Instr.diff (-2) 1 (-2)).wf = true ∧ (Instr.luma (-32) 7 (-8)).wf = true ∧ (Instr.luma 31 (-8) 7).wf = true := by
  decide

theorem witness_DecodeTotalAndInRange :
    5 ≤ [0xFF, 1, 2, 3, (4 : Byte)].length ∧ decode [0xFF, 1, 2, 3, 4] = .ok (.rgba 1 2 3 4, []) := ⟨by decide, rfl⟩

theorem witness_AssemblerLinesExact :
    parseLine ("RUN", [62]) = some (.run 62) ∧ (∀ i ∈ [Instr.run 62], i.wf = true) ∧
      ∃ i ∈ [Instr.run 62, .run 63], i.wf = false := by decide

theorem witness_SignedReadingIsAView :
    (0x7FFFFFFF : Word32).toNat < 2 ^ 31 ∧ 2 ^ 31 ≤ (0x80000000 : Word32).toNat := by decide

theorem witness_HashIndependentOfWidth : 6 ≤ 6 := by decide

theorem witness_CacheWriteOwnSlotOnly :
    (0 : Slot) ≠ Machine.hash Config.start ∧ cacheLookup Config.start resetCache = true ∧
      cacheLookup ⟨10, 20, 30, 255⟩ resetCache = false := by decide

theorem witness_ResetCacheHitsExactly : (52 : Slot) ≠ 53 ∧ (54 : Slot) ≠ 53 := by decide

/-- The pixel's own slot, and a slot never written. -/
theorem witness_IndexExecution :
    Machine.hash State.reset.dec.C[(53 : Slot)] = 53 ∧ SlotsOwned State.reset.dec.C ∧
      Machine.hash State.reset.dec.C[(5 : Slot)] ≠ 5 := by decide

/-- The last run that fits and the first that does not. -/
theorem witness_RunExecution :
    1 ≤ 62 ∧ (decoding 62 [0xFD]).dec.opos + 62 ≤ (decoding 62 [0xFD]).dec.N ∧
      PrevCached (decoding 62 [0xFD]).dec.prev (decoding 62 [0xFD]).dec.C ∧
      (decoding 61 [0xFD]).dec.N < (decoding 61 [0xFD]).dec.opos + 62 := by decide

theorem witness_ChunkFrame :
    (∃ t, exec (.run 62) (decoding 62 [0xFD]) = .next t ∧ t.dec.phase = .active) ∧
      ∃ t, exec (.run 62) (decoding 61 [0xFD]) = .next t ∧ t.dec.phase = .fault := ⟨⟨_, rfl, by decide⟩, _, rfl, by decide⟩

theorem witness_StepRunsDecodedChunk :
    DecReady (decoding 2 [0xFD, 0x40]) ∧ decode [0xFD, 0x40] = .ok (.run 62, [0x40]) ∧
      ∃ t, exec (.run 62) (takeCommand (decoding 62 [0xFD, 0x40])) = .next t := ⟨by decide, rfl, _, rfl⟩

/-- The last pixel from the last byte, the last pixel with a byte left, a pixel missing. -/
theorem witness_EndCheckOutcomes :
    (midDecode 2 [0xC1]).dec.phase = .active ∧ (midDecode 2 [0xC1]).dec.opos = (midDecode 2 [0xC1]).dec.N ∧
      (midDecode 2 [0xC1]).dec.cur = (midDecode 2 [0xC1]).dec.blen ∧
      (midDecode 2 [0xC1, 0]).dec.cur ≠ (midDecode 2 [0xC1, 0]).dec.blen ∧
      (midDecode 3 [0xC1, 0]).dec.opos ≠ (midDecode 3 [0xC1, 0]).dec.N := by decide

/-- The cursor on the end, an RGB one byte short, an RGB whole. -/
theorem witness_FetchBounds :
    DecReady (decoding 1 []) ∧ (decoding 1 []).dec.blen ≤ (decoding 1 []).dec.cur ∧
      (decoding 1 [0xFE, 1, 2]).dec.In[0]? = some 0xFE ∧
      (decoding 1 [0xFE, 1, 2]).dec.blen < (decoding 1 [0xFE, 1, 2]).dec.cur + chunkLength 0xFE ∧
      (decoding 1 [0xFE, 1, 2, 3]).dec.cur + chunkLength 0xFE ≤ (decoding 1 [0xFE, 1, 2, 3]).dec.blen := by decide

theorem witness_FaultEntryDefinedPart :
    State.reset.dec.err = .noFault ∧ (decReset 0 [] State.reset).dec.err ≠ .noFault := by decide

/-- A decode under way that meets the invariant, and each of the four causes and DONE, each in a state that meets it. -/
theorem witness_DecStepOutcomeExact_exhausted : (decoding 1 []).Inv ∧ DecReady (decoding 1 []) ∧ (decoding 1 []).dec.blen ≤ 0 :=
  ⟨by decide, by decide, by decide⟩
theorem witness_DecStepOutcomeExact_truncated :
    (decoding 1 [0xA0]).Inv ∧ DecReady (decoding 1 [0xA0]) ∧ (decoding 1 [0xA0]).dec.blen < 0 + chunkLength 0xA0 :=
  ⟨by decide, by decide, by decide⟩
theorem witness_DecStepOutcomeExact_overrun :
    (decoding 61 [0xFD]).Inv ∧ DecReady (decoding 61 [0xFD]) ∧ decode [0xFD] = .ok (.run 62, []) :=
  ⟨by decide, by decide, rfl⟩
theorem witness_DecStepOutcomeExact_trailing :
    (decoding 62 [0xFD, 0]).Inv ∧ DecReady (decoding 62 [0xFD, 0]) ∧ decode [0xFD, 0] = .ok (.run 62, [0]) :=
  ⟨by decide, by decide, rfl⟩
theorem witness_DecStepOutcomeExact_done :
    (decoding 62 [0xFD]).Inv ∧ DecReady (decoding 62 [0xFD]) ∧ (decoding 62 [0xFD]).dec.opos + 62 = 62 :=
  ⟨by decide, by decide, by decide⟩

theorem witness_DecodeTerminates :
    (decoding 3 [0xC0, 0xC1]).Inv ∧ (decoding 3 [0xC0, 0xC1]).decUp = true ∧
      (decoding 3 [0xC0, 0xC1]).dec.phase = .active ∧ (decoding 3 [0xC0, 0xC1]).host = [] ∧
      ∃ t, runSteps 1 (decoding 3 [0xC0, 0xC1]) = .next t ∧ t.dec.phase = .active :=
  ⟨by decide, rfl, rfl, rfl, _, rfl, by decide⟩

/-- A body that decodes, and one that does not. -/
theorem witness_DecodeSucceedsExactly :
    1 ≤ 2 ∧ decodeBody [0xC1] 2 = .ok [Config.start, Config.start] ∧ decodeBody [0xC1] 1 = .error .decodeLengthMismatch :=
  ⟨by decide, by decide, rfl⟩

/-- The counter at 60, and at 61. -/
theorem witness_EncRunExtension :
    EncReady (.encPixel Config.start) (encoding 60 (.encPixel Config.start)) ∧
      (encoding 60 (.encPixel Config.start)).enc.run + 1 ≠ 62 ∧
      (encoding 61 (.encPixel Config.start)).enc.run + 1 = 62 := by decide

theorem witness_EncIndexSelected :
    EncReady (.encPixel Config.zero) (encoding 61 (.encPixel Config.zero)) ∧ Config.zero ≠ EncCtx.reset.prev ∧
      cacheRead (Machine.hash Config.zero) EncCtx.reset.C = Config.zero := by decide

/-- A pixel that misses the reset cache and is not its `prev`. -/
def missesReset (P : Pixel) : Prop := P ≠ EncCtx.reset.prev ∧ cacheRead (Machine.hash P) EncCtx.reset.C ≠ P

/-- A24, A3 and A5, A20, A13: one pixel for each of the four outcomes, at the ends of the ranges. -/
theorem witness_EncMissSelection :
    EncReady (.encPixel ⟨0, 0, 0, 254⟩) (encoding 0 (.encPixel ⟨0, 0, 0, 254⟩)) ∧
      (missesReset ⟨0, 0, 0, 254⟩ ∧ (254 : Byte) ≠ EncCtx.reset.prev.a) ∧
      (missesReset ⟨1, 254, 1, 255⟩ ∧ ((1 : Byte) - 0).toInt = 1 ∧ ((254 : Byte) - 0).toInt = -2) ∧
      (missesReset ⟨216, 224, 216, 255⟩ ∧ ((224 : Byte) - 0).toInt = -32 ∧
        ((216 : Byte) - 0).toInt - ((224 : Byte) - 0).toInt = -8) ∧
      missesReset ⟨223, 223, 223, 255⟩ ∧ ((223 : Byte) - 0).toInt = -33 := by
  unfold missesReset
  decide

theorem witness_EncFinishFlushes :
    EncReady .encFinish (encoding 1 .encFinish) ∧ 0 < (encoding 1 .encFinish).enc.run ∧
      (encoding 0 .encFinish).enc.run = 0 := by decide

theorem witness_EncBytesPerCommand :
    Config.start = EncCtx.reset.prev ∧ (encoding 60 .encFinish).enc.run + 1 ≠ 62 ∧
      (encoding 61 .encFinish).enc.run + 1 = 62 ∧ Config.zero ≠ EncCtx.reset.prev := by decide

/-- A pending run at the end of its range. -/
theorem witness_EncodedBodyIsChunks :
    runPending (encoding 61 .encFinish).enc = true ∧ (encoding 61 .encFinish).enc.run ≤ 61 := by decide

theorem witness_EncCommandsComplete :
    EncReady (.encPixel Config.zero) (encoding 61 (.encPixel Config.zero)) ∧ EncReady .encFinish (encoding 61 .encFinish) ∧
      nextCommand (encoding 0 .encReset) = .encReset := by decide

/-- LUMA is selected for A11's pixel, and RGB would make the same pixel. -/
theorem witness_FirstMatchIsSmallest :
    (⟨2, 2, 2, 255⟩ : Pixel) ≠ EncCtx.reset.prev ∧ cacheLookup Config.zero EncCtx.reset.C = true ∧
      (Instr.rgb 2 2 2).wf = true ∧ (Instr.rgb 2 2 2).kind ≠ .run ∧
      ∃ t, exec (.rgb 2 2 2) State.reset = .next t ∧ t.dec.prev = ⟨2, 2, 2, 255⟩ :=
  ⟨by decide, by decide, rfl, by decide, _, rfl, rfl⟩

/-- B8's kind of run, two pixels long: its body has a RUN, which stands for the second and third pixel; and the pixel that
comes again after it is encoded as INDEX of a slot other than 0 and 53. -/
theorem witness_EncNeverEmits_positions :
    (disassemble (encodeBody [⟨1, 1, 1, 255⟩, ⟨1, 1, 1, 255⟩, ⟨1, 1, 1, 255⟩])).1[1]? = some (.run 2) ∧
      (⟨1, 1, 1, 255⟩ : Pixel) ≠ (encodePixels [⟨1, 1, 1, 255⟩, Config.start] EncCtx.reset).prev ∧
      selectChunk ⟨1, 1, 1, 255⟩ (encodePixels [⟨1, 1, 1, 255⟩, Config.start] EncCtx.reset) = .index 4 ∧
      (4 : Slot) ≠ 0 ∧ (4 : Slot) ≠ 53 := by decide

/-- Each kind of chunk is selected for some pixel; B3's body has two adjacent RUN chunks. -/
theorem witness_EncNeverEmits :
    selectChunk Config.zero EncCtx.reset = .index 0 ∧ (selectChunk ⟨2, 2, 2, 255⟩ EncCtx.reset).kind = .luma ∧
      (selectChunk ⟨10, 20, 30, 255⟩ EncCtx.reset).kind = .rgb ∧
      (selectChunk ⟨0, 0, 0, 254⟩ EncCtx.reset).kind = .rgba ∧
      disassemble [0xFD, 0xC0] = ([.run 62, .run 1], []) := by decide

theorem witness_EncodeBodyIsWhatEncDoes :
    ({ State.reset with host := encodeCommands [Config.zero] ++ [.decStep] } : State).host =
      encodeCommands [Config.zero] ++ [.decStep] := rfl

theorem witness_DecodeBodyIsWhatDecDoes :
    ({ State.reset with host := [.decReset 1 [0xC0]] } : State).host = [.decReset 1 [0xC0]] ∧ State.reset.cntW = none :=
  ⟨rfl, rfl⟩

theorem witness_ReconstructionExact :
    ∃ t, exec (selectMiss ⟨2, 2, 2, 255⟩ State.reset.dec.prev) State.reset = .next t := ⟨_, rfl⟩

theorem witness_Lockstep : [Config.start, Config.zero] ≠ [] ∧ 2 ≤ [Config.start, Config.zero].length := by decide

theorem witness_RoundTrip : 1 ≤ [Config.start].length := by decide

theorem witness_LengthIsChecked : 1 ≤ [Config.start].length ∧ 1 ≤ 2 ∧ 2 ≠ [Config.start].length := by decide

theorem witness_EncodeInjectiveDecodeNot :
    1 ≤ [Config.start].length ∧ encodeBody [Config.start] = encodeBody [Config.start] := ⟨by decide, rfl⟩

theorem witness_RunBounds : EncCtx.reset.run = 0 ∧ 1 ≤ 62 ∧ 62 % 62 = 0 ∧ 63 % 62 ≠ 0 ∧ Config.zero ≠ EncCtx.reset.prev := by
  decide

/-- S6's two pixels, after the first of them. -/
theorem witness_IndexCollision :
    PrevCached (encodePixel ⟨1, 0, 0, 255⟩ EncCtx.reset).prev (encodePixel ⟨1, 0, 0, 255⟩ EncCtx.reset).C ∧
      (⟨1, 0, 0, 255⟩ : Pixel) ≠ ⟨1, 64, 0, 255⟩ ∧
      Machine.hash ⟨1, 0, 0, 255⟩ = Machine.hash ⟨1, 64, 0, 255⟩ ∧
      cacheLookup ⟨1, 64, 0, 255⟩ (encodePixel ⟨1, 0, 0, 255⟩ EncCtx.reset).C = false ∧
      (⟨1, 0, 0, 255⟩ : Pixel) ∉ [Config.zero] := by decide

theorem witness_EncResetEffect : nextCommand (encoding 5 .encReset) = .encReset := by decide

/-- Operands that are latched, and each kind of refusal in a build with 8-bit counters. -/
theorem witness_DecResetEffect :
    nextCommand { State.reset with cntW := some 8, host := [.decReset 255 [0xC0]] } = .decReset 255 [0xC0] ∧
      255 < 2 ^ 8 ∧ [(0xC0 : Byte)].length < 2 ^ 8 ∧ ¬ 256 < 2 ^ 8 ∧ ¬ (List.replicate 256 (0xC0 : Byte)).length < 2 ^ 8 := by
  refine ⟨rfl, by decide, by decide, by decide, by rw [List.length_replicate]; decide⟩

theorem witness_MisuseIsStuck_enc :
    nextCommand { encoding 0 .encFinish with encUp := false } = .encFinish ∧
      nextCommand (encoding 0 (.encPixel Config.zero)) = .encPixel Config.zero ∧
      (finishEnc EncCtx.reset).phase ≠ .active := by decide

theorem witness_MisuseIsStuck_dec :
    nextCommand { State.reset with decUp := false } = .decStep ∧ (decReset 0 [] State.reset).dec.phase ≠ .active ∧
      (decReset 0 [] State.reset).decUp = true := by decide

/-- Each unit has ended, DEC in FAULT and ENC in DONE, and the other one's reset takes a step. -/
theorem witness_OnlyAResetLeavesTheEnd :
    (∃ t, step { decReset 0 [] State.reset with host := [.encReset] } = .next t) ∧
      (decReset 0 [] State.reset).decUp = true ∧ (decReset 0 [] State.reset).dec.phase ≠ .active ∧
      (∃ t, step { State.reset with enc := finishEnc EncCtx.reset, host := [.decReset 1 []] } = .next t) ∧
      (finishEnc EncCtx.reset).phase ≠ .active :=
  ⟨⟨_, rfl⟩, rfl, by decide, ⟨_, rfl⟩, by decide⟩

theorem witness_ContextsArePrivate :
    (∃ t, runCommand (.encPixel Config.zero) State.reset = .next t) ∧ Command.isEnc (.encPixel Config.zero) = true ∧
      (∃ t, runCommand .decStep State.reset = .next t) ∧ Command.isEnc .decStep = false :=
  ⟨⟨_, rfl⟩, rfl, ⟨_, rfl⟩, rfl⟩

theorem witness_CommandsOfTheUnitsCommute :
    Command.isEnc (.encPixel Config.zero) = true ∧ Command.isEnc .decStep = false ∧
      (∃ u t, runCommand (.encPixel Config.zero) State.reset = .next t ∧ runCommand .decStep t = .next u) ∧
      ∃ u v, runCommand .decStep State.reset = .next v ∧ runCommand (.encPixel Config.zero) v = .next u :=
  ⟨rfl, rfl, ⟨_, _, rfl, rfl⟩, _, _, rfl, rfl⟩

/-- A step that ends in DONE, from a state that meets the invariant. -/
theorem witness_StepKeepsInvariant : (decoding 1 [0x3F]).Inv ∧ ∃ t, step (decoding 1 [0x3F]) = .next t ∧ t.dec.phase = .done :=
  ⟨by decide, _, rfl, by decide⟩

theorem witness_PrevStandsInItsSlot :
    (∃ t, step (decoding 2 [0x7F, 0x7F]) = .next t ∧ t.decUp = true ∧ t.dec.phase ≠ .fault) ∧
      PrevCached (decoding 2 [0x7F, 0x7F]).dec.prev (decoding 2 [0x7F, 0x7F]).dec.C :=
  ⟨⟨_, rfl, rfl, by decide⟩, by decide⟩

theorem witness_PlacedChunkRunsNext : decodeTableWord 8 0xFD = some (.run 62) := by decide

end Sys2Proof.Tests
end

section
/-!
The word of four bytes, lane by lane, and the pixel on a 32-bit port (40_be32_pack.md R111, R112, R114; 20_memory.md R56).
-/
namespace Sys2Proof.Machine

/-! ### The four bytes of a word -/

theorem lane_eq_of_toNat {w : Word32} {k : Nat} {b : Byte} (h : w.toNat / 2 ^ k % 256 = b.toNat) :
    w.extractLsb' k 8 = b :=
  BitVec.eq_of_toNat_eq ((toNat_lane w k).trans h)

/-- R111: the first byte unpacked is the most significant lane. -/
theorem lanes_unpack32 (s : Vector Byte 4) :
    (unpack32 s).extractLsb' 24 8 = s[0] ∧ (unpack32 s).extractLsb' 16 8 = s[1] ∧
      (unpack32 s).extractLsb' 8 8 = s[2] ∧ (unpack32 s).extractLsb' 0 8 = s[3] := by
  have hw := toNat_unpack32 s
  refine ⟨lane_eq_of_toNat ?_, lane_eq_of_toNat ?_, lane_eq_of_toNat ?_, lane_eq_of_toNat ?_⟩ <;> omega

/-- R112: packing reads the lanes from the most significant down. -/
theorem pack32_eq_lanes (w : Word32) :
    pack32 w = #v[w.extractLsb' 24 8, w.extractLsb' 16 8, w.extractLsb' 8 8, w.extractLsb' 0 8] := by
  simp only [pack32, BitVec.extractLsb', Nat.shiftRight_eq_div_pow, pow_zero, Nat.div_one]

theorem pack32_unpack32 (s : Vector Byte 4) : pack32 (unpack32 s) = s := by
  obtain ⟨h24, h16, h8, h0⟩ := lanes_unpack32 s
  rw [pack32_eq_lanes, h24, h16, h8, h0]
  ext i hi
  interval_cases i <;> rfl

/-- A word is the weighted sum of its lanes. -/
theorem unpack32_pack32 (w : Word32) : unpack32 (pack32 w) = w := by
  have := w.isLt
  apply BitVec.eq_of_toNat_eq
  simp only [toNat_unpack32, pack32_eq_lanes, Vector.getElem_mk, List.getElem_toArray, List.getElem_cons_zero,
    List.getElem_cons_succ, toNat_lane]
  omega

/-! ### The pixel on the port (R56) -/

theorem pixelOfWord_wordOfPixel (p : Pixel) : pixelOfWord (wordOfPixel p) = p := by
  unfold pixelOfWord wordOfPixel
  rw [pack32_unpack32]
  rfl

theorem pixelBytes_pixelOfWord (w : Word32) : pixelBytes (pixelOfWord w) = pack32 w := rfl

theorem wordOfPixel_pixelOfWord (w : Word32) : wordOfPixel (pixelOfWord w) = w := by
  unfold wordOfPixel
  rw [pixelBytes_pixelOfWord, unpack32_pack32]

/-- Settles O13: the lanes of the unpacked word are the pixel's four bytes, and the two round trips are those of
`pack32` and `unpack32`. -/
theorem pixelOnWordPort : Obligations.PixelOnWordPort := by
  unfold Obligations.PixelOnWordPort
  refine ⟨fun p => ?_, wordOfPixel_pixelOfWord⟩
  obtain ⟨hr, hg, hb, ha⟩ := lanes_unpack32 (pixelBytes p)
  exact ⟨hr, hg, hb, ha, pixelOfWord_wordOfPixel p⟩

end Sys2Proof.Machine
end

section
/-!
The first-byte map as ranges, and the six chunk formats as numbers both ways (30_encoding.md R82 to R91).
-/
namespace Sys2Proof

/-! ### The ranges of the first byte (R88) -/

/-- The least first byte of a kind (R88). -/
def Kind.firstByte : Kind → Nat
  | .index => 0x00
  | .diff => 0x40
  | .luma => 0x80
  | .run => 0xC0
  | .rgb => 0xFE
  | .rgba => 0xFF

/-- The greatest first byte of a kind (R88). -/
def Kind.lastByte : Kind → Nat
  | .index => 0x3F
  | .diff => 0x7F
  | .luma => 0xBF
  | .run => 0xFD
  | .rgb => 0xFE
  | .rgba => 0xFF

theorem byte_eq_FE_iff {b : Byte} : b = 0xFE ↔ b.toNat = 0xFE := BitVec.toNat_inj.symm

theorem byte_eq_FF_iff {b : Byte} : b = 0xFF ↔ b.toNat = 0xFF := BitVec.toNat_inj.symm

/-- R88: a kind is selected by exactly the first bytes of its range. -/
theorem kindOf_eq_iff {b0 : Byte} {k : Kind} : kindOf b0 = k ↔ k.firstByte ≤ b0.toNat ∧ b0.toNat ≤ k.lastByte := by
  constructor
  · rintro rfl
    have := b0.isLt
    rw [kindOf_eq]
    split_ifs <;> simp only [Kind.firstByte, Kind.lastByte] <;> omega
  · rintro ⟨hlo, hhi⟩
    cases k <;> simp only [Kind.firstByte, Kind.lastByte] at hlo hhi
    case index => exact kindOf_index (by omega)
    case diff => exact kindOf_diff hlo (by omega)
    case luma => exact kindOf_luma hlo (by omega)
    case run => exact kindOf_run hlo (by omega)
    case rgb =>
      obtain rfl := byte_eq_FE_iff.2 (Nat.le_antisymm hhi hlo)
      rfl
    case rgba =>
      obtain rfl := byte_eq_FF_iff.2 (Nat.le_antisymm hhi hlo)
      rfl

/-! ### The fields of a decoded chunk (R82 to R85, R91) -/

theorem decodeIndex_eq (b0 : Byte) : decodeIndex b0 = .index ⟨b0.toNat % 64, Nat.mod_lt _ (by decide)⟩ := by
  simp [decodeIndex, bits]

theorem decodeRun_eq (b0 : Byte) : decodeRun b0 = .run (b0.toNat % 64 + 1) := by
  simp [decodeRun, bits]

theorem decodeDiff_eq (b0 : Byte) :
    decodeDiff b0 = .diff ((b0.toNat : Int) / 16 % 4 - 2) ((b0.toNat : Int) / 4 % 4 - 2) ((b0.toNat : Int) % 4 - 2) := by
  simp [decodeDiff, bits, unbias]

theorem decodeLuma_eq (b0 b1 : Byte) :
    decodeLuma b0 b1 =
      .luma ((b0.toNat : Int) % 64 - 32) ((b1.toNat : Int) / 16 - 8) ((b1.toNat : Int) % 16 - 8) := by
  have := b1.isLt
  simp [decodeLuma, bits, unbias]
  omega

theorem decode_cons_index {b0 : Byte} (h : b0.toNat ≤ 0x3F) (rest : List Byte) :
    decode (b0 :: rest) = .ok (.index ⟨b0.toNat % 64, Nat.mod_lt _ (by decide)⟩, rest) := by
  have hk : kindOf b0 = .index := kindOf_eq_iff.2 ⟨Nat.zero_le _, h⟩
  simp only [decode, hk, decodeIndex_eq]

theorem decode_cons_diff {b0 : Byte} (h : 0x40 ≤ b0.toNat) (h' : b0.toNat ≤ 0x7F) (rest : List Byte) :
    decode (b0 :: rest) =
      .ok (.diff ((b0.toNat : Int) / 16 % 4 - 2) ((b0.toNat : Int) / 4 % 4 - 2) ((b0.toNat : Int) % 4 - 2), rest) := by
  have hk : kindOf b0 = .diff := kindOf_eq_iff.2 ⟨h, h'⟩
  simp only [decode, hk, decodeDiff_eq]

theorem decode_cons_luma {b0 : Byte} (h : 0x80 ≤ b0.toNat) (h' : b0.toNat ≤ 0xBF) (b1 : Byte) (rest : List Byte) :
    decode (b0 :: b1 :: rest) =
      .ok (.luma ((b0.toNat : Int) % 64 - 32) ((b1.toNat : Int) / 16 - 8) ((b1.toNat : Int) % 16 - 8), rest) := by
  have hk : kindOf b0 = .luma := kindOf_eq_iff.2 ⟨h, h'⟩
  simp only [decode, hk, decodeLuma_eq]

theorem decode_cons_run {b0 : Byte} (h : 0xC0 ≤ b0.toNat) (h' : b0.toNat ≤ 0xFD) (rest : List Byte) :
    decode (b0 :: rest) = .ok (.run (b0.toNat % 64 + 1), rest) := by
  have hk : kindOf b0 = .run := kindOf_eq_iff.2 ⟨h, h'⟩
  simp only [decode, hk, decodeRun_eq]

theorem decode_cons_rgb (r g b : Byte) (rest : List Byte) :
    decode (0xFE :: r :: g :: b :: rest) = .ok (.rgb r g b, rest) := rfl

theorem decode_cons_rgba (r g b a : Byte) (rest : List Byte) :
    decode (0xFF :: r :: g :: b :: a :: rest) = .ok (.rgba r g b a, rest) := rfl

/-! ### The bytes of a well-formed chunk (R82 to R85) -/

theorem encode_run_toNat {count : Nat} (h : 1 ≤ count) (h' : count ≤ 62) :
    ∃ b : Byte, encode (.run count) = [b] ∧ b.toNat = 0xC0 + (count - 1) := by
  have hv := toNat_byteOf (0xC0 + ((count : Int) - 1)) (by omega) (by omega)
  exact ⟨_, rfl, by omega⟩

theorem encode_index_toNat (i : Slot) : ∃ b : Byte, encode (.index i) = [b] ∧ b.toNat = i.val := by
  have hv := toNat_byteOf (i.val : Int) (by omega) (by omega)
  exact ⟨_, rfl, by omega⟩

theorem encode_diff_toNat {dr dg db : Int} (hr : -2 ≤ dr ∧ dr ≤ 1) (hg : -2 ≤ dg ∧ dg ≤ 1) (hb : -2 ≤ db ∧ db ≤ 1) :
    ∃ b : Byte, encode (.diff dr dg db) = [b] ∧ (b.toNat : Int) = 0x40 + 16 * (dr + 2) + 4 * (dg + 2) + (db + 2) :=
  ⟨_, rfl, toNat_byteOf _ (by omega) (by omega)⟩

theorem encode_luma_toNat {dg drg dbg : Int} (hg : -32 ≤ dg ∧ dg ≤ 31) (hr : -8 ≤ drg ∧ drg ≤ 7)
    (hb : -8 ≤ dbg ∧ dbg ≤ 7) :
    ∃ b0 b1 : Byte, encode (.luma dg drg dbg) = [b0, b1] ∧ (b0.toNat : Int) = 0x80 + (dg + 32) ∧
      (b1.toNat : Int) = 16 * (drg + 8) + (dbg + 8) :=
  ⟨_, _, rfl, toNat_byteOf _ (by omega) (by omega), toNat_byteOf _ (by omega) (by omega)⟩

/-- Settles O6: the encoding function and the decoder of each format, one lemma each. -/
theorem chunkFormats : Obligations.ChunkFormats := by
  unfold Obligations.ChunkFormats
  exact ⟨fun _ => encode_run_toNat, fun _ rest h h' => decode_cons_run h h' rest,
    encode_index_toNat, fun _ rest h => ⟨_, decode_cons_index h rest, rfl⟩,
    fun _ _ _ => encode_diff_toNat, fun _ rest h h' => decode_cons_diff h h' rest,
    fun _ _ _ => encode_luma_toNat, fun _ b1 rest h h' => decode_cons_luma h h' b1 rest,
    fun _ _ _ => rfl, decode_cons_rgb, fun _ _ _ _ => rfl, decode_cons_rgba⟩

/-- Settles O3: each range of the first byte decodes to its kind; the slot and the count are the low six bits of a byte
whose two top bits are known. -/
theorem firstByteMap : Obligations.FirstByteMap := by
  unfold Obligations.FirstByteMap
  intro b0 rest
  refine ⟨fun h => ⟨_, decode_cons_index h rest, Nat.mod_eq_of_lt (by omega)⟩,
    fun h h' => ⟨_, _, _, decode_cons_diff h h' rest⟩,
    fun h h' b1 => ⟨_, _, _, decode_cons_luma h h' b1 rest⟩, fun h h' => ?_, ?_, ?_⟩
  · have hcount : b0.toNat % 64 + 1 = b0.toNat - 0xBF := by omega
    rw [decode_cons_run h h' rest, hcount]
  · rintro rfl r g b
    exact decode_cons_rgb r g b rest
  · rintro rfl r g b a
    exact decode_cons_rgba r g b a rest

/-- Settles O5: the length by the two top bits, and a decoder that takes that many bytes or finds the chunk cut short. -/
theorem chunkLengthFromFirstByte : Obligations.ChunkLengthFromFirstByte := by
  unfold Obligations.ChunkLengthFromFirstByte
  intro b0 t
  refine ⟨fun h => if_pos h, ?_, fun h1 h2 htag => ?_, fun h1 h2 htag => ?_, fun h => ?_, decode_of_lt b0 t⟩
  · rintro rfl
    rfl
  · rw [chunkLength, if_neg h1, if_neg h2, bits_tag, if_pos htag]
  · rw [chunkLength, if_neg h1, if_neg h2, bits_tag, if_neg htag]
  · obtain ⟨i, hdecode, -, hlength⟩ := decode_of_le b0 t h
    exact ⟨i, hdecode, hlength⟩

/-! ### Mask and match (R89) -/

/-- The two-bit mask keeps the two top bits where they stand. -/
theorem and_C0_eq_iff (b p : Byte) : b &&& 0xC0 = p ↔ b.toNat / 64 * 64 = p.toNat := by
  have hmask : (b &&& 0xC0).toNat = b.toNat / 64 * 64 := by
    revert b
    decide
  rw [← BitVec.toNat_inj, hmask]

theorem and_FF (b : Byte) : b &&& 0xFF = b := BitVec.and_allOnes

theorem kindOf_eq_rgb_iff (b0 : Byte) : kindOf b0 = .rgb ↔ b0 &&& 0xFF = 0xFE := by
  rw [and_FF, byte_eq_FE_iff, kindOf_eq_iff, Kind.firstByte, Kind.lastByte]
  omega

theorem kindOf_eq_rgba_iff (b0 : Byte) : kindOf b0 = .rgba ↔ b0 &&& 0xFF = 0xFF := by
  rw [and_FF, byte_eq_FF_iff, kindOf_eq_iff, Kind.firstByte, Kind.lastByte]
  omega

/-- A two-bit row holds of a whole range of 64 first bytes. -/
theorem kindOf_eq_iff_mask (b0 : Byte) {k : Kind} {p : Byte} (hp : p.toNat = k.firstByte) (hmod : k.firstByte % 64 = 0)
    (hlast : k.lastByte = k.firstByte + 63) : kindOf b0 = k ↔ b0 &&& 0xC0 = p := by
  rw [and_C0_eq_iff, kindOf_eq_iff, hp, hlast]
  omega

theorem kindOf_eq_index_iff (b0 : Byte) : kindOf b0 = .index ↔ b0 &&& 0xC0 = 0x00 := kindOf_eq_iff_mask b0 rfl rfl rfl

theorem kindOf_eq_diff_iff (b0 : Byte) : kindOf b0 = .diff ↔ b0 &&& 0xC0 = 0x40 := kindOf_eq_iff_mask b0 rfl rfl rfl

theorem kindOf_eq_luma_iff (b0 : Byte) : kindOf b0 = .luma ↔ b0 &&& 0xC0 = 0x80 := kindOf_eq_iff_mask b0 rfl rfl rfl

/-- The RUN row alone takes the two 8-bit tags as well. -/
theorem run_row_iff (b0 : Byte) : b0 &&& 0xC0 = 0xC0 ↔ 0xC0 ≤ b0.toNat := by
  have := b0.isLt
  rw [and_C0_eq_iff]
  change b0.toNat / 64 * 64 = 0xC0 ↔ _
  omega

theorem kindOf_eq_run_iff (b0 : Byte) : kindOf b0 = .run ↔ b0 &&& 0xC0 = 0xC0 ∧ b0 ≠ 0xFE ∧ b0 ≠ 0xFF := by
  have := b0.isLt
  rw [run_row_iff, kindOf_eq_iff, Kind.firstByte, Kind.lastByte, Ne, Ne, byte_eq_FE_iff, byte_eq_FF_iff]
  omega

/-- R89: with the two 8-bit rows first, the first matching row is the row of the kind. -/
theorem tableKind_eq (b0 : Byte) : tableKind b0 = some (kindOf b0) := by
  have hrun : kindOf b0 = .run → b0 &&& 0xC0 = 0xC0 := fun h => ((kindOf_eq_run_iff b0).1 h).1
  simp only [tableKind, opcodeRows, List.find?_cons, beq_eq_decide, ← kindOf_eq_rgb_iff, ← kindOf_eq_rgba_iff,
    ← kindOf_eq_index_iff, ← kindOf_eq_diff_iff, ← kindOf_eq_luma_iff]
  cases hk : kindOf b0
  case run =>
    rw [hrun hk]
    rfl
  case rgb | rgba | index | diff | luma => rfl

/-- Settles O4: the order of the tests on numbers, and the rows one by one. -/
theorem dispatchOrderMatchesTable : Obligations.DispatchOrderMatchesTable := by
  unfold Obligations.DispatchOrderMatchesTable
  intro b0
  refine ⟨?_, ?_, fun h1 h2 => ⟨fun htag => kindOf_index (by omega), fun htag => kindOf_diff (by omega) (by omega),
    fun htag => kindOf_luma (by omega) (by omega), fun htag => ?_⟩, kindOf_eq_rgb_iff b0, kindOf_eq_rgba_iff b0,
    kindOf_eq_index_iff b0, kindOf_eq_diff_iff b0, kindOf_eq_luma_iff b0, kindOf_eq_run_iff b0, tableKind_eq b0⟩
  · rintro rfl
    rfl
  · rintro rfl
    rfl
  · exact (kindOf_eq_run_iff b0).2 ⟨(run_row_iff b0).2 (by omega), h1, h2⟩

end Sys2Proof
end

section
/-!
Encoding and decoding undo each other, so disassembly is total, unique and inverse to assembly (30_encoding.md R91 to R96).
-/
namespace Sys2Proof

/-! ### Decoding what was encoded -/

/-- A well-formed chunk is read back from its bytes, and the bytes after it are handed back. -/
theorem decode_encode_append {i : Instr} (hwf : i.wf = true) (rest : List Byte) :
    decode (encode i ++ rest) = .ok (i, rest) := by
  cases i with
  | rgb r g b => exact decode_cons_rgb r g b rest
  | rgba r g b a => exact decode_cons_rgba r g b a rest
  | index i =>
    obtain ⟨b0, hbytes, hb0⟩ := encode_index_toNat i
    rw [hbytes, List.singleton_append, decode_cons_index (by omega)]
    simp only [hb0, Nat.mod_eq_of_lt i.isLt]
  | run count =>
    obtain ⟨hlo, hhi⟩ := (wf_run_iff count).1 hwf
    obtain ⟨b0, hbytes, hb0⟩ := encode_run_toNat hlo hhi
    have hcount : b0.toNat % 64 + 1 = count := by omega
    rw [hbytes, List.singleton_append, decode_cons_run (by omega) (by omega), hcount]
  | diff dr dg db =>
    obtain ⟨hr, hg, hb⟩ := (wf_diff_iff dr dg db).1 hwf
    obtain ⟨b0, hbytes, hb0⟩ := encode_diff_toNat hr hg hb
    have hdr : (b0.toNat : Int) / 16 % 4 - 2 = dr := by omega
    have hdg : (b0.toNat : Int) / 4 % 4 - 2 = dg := by omega
    have hdb : (b0.toNat : Int) % 4 - 2 = db := by omega
    rw [hbytes, List.singleton_append, decode_cons_diff (by omega) (by omega), hdr, hdg, hdb]
  | luma dg drg dbg =>
    obtain ⟨hg, hr, hb⟩ := (wf_luma_iff dg drg dbg).1 hwf
    obtain ⟨b0, b1, hbytes, hb0, hb1⟩ := encode_luma_toNat hg hr hb
    have hdg : (b0.toNat : Int) % 64 - 32 = dg := by omega
    have hdrg : (b1.toNat : Int) / 16 - 8 = drg := by omega
    have hdbg : (b1.toNat : Int) % 16 - 8 = dbg := by omega
    rw [hbytes, List.cons_append, List.singleton_append, decode_cons_luma (by omega) (by omega), hdg, hdrg, hdbg]

/-! ### Encoding what was decoded -/

theorem encode_decodeIndex {b0 : Byte} (h : b0.toNat ≤ 0x3F) : encode (decodeIndex b0) = [b0] := by
  rw [decodeIndex_eq, encode, byteOf_eq]
  exact congrArg Nat.cast (Nat.mod_eq_of_lt (Nat.lt_succ_of_le h))

theorem encode_decodeDiff {b0 : Byte} (h : 0x40 ≤ b0.toNat) (h' : b0.toNat ≤ 0x7F) : encode (decodeDiff b0) = [b0] := by
  rw [decodeDiff_eq, encode, byteOf_eq]
  omega

theorem encode_decodeLuma {b0 : Byte} (h : 0x80 ≤ b0.toNat) (h' : b0.toNat ≤ 0xBF) (b1 : Byte) :
    encode (decodeLuma b0 b1) = [b0, b1] := by
  rw [decodeLuma_eq, encode, byteOf_eq (b := b0) (by omega), byteOf_eq (b := b1) (by omega)]

theorem encode_decodeRun {b0 : Byte} (h : 0xC0 ≤ b0.toNat) (h' : b0.toNat ≤ 0xFD) : encode (decodeRun b0) = [b0] := by
  rw [decodeRun_eq, encode, byteOf_eq]
  omega

/-- A decoded chunk encodes to the bytes it was read from. -/
theorem encode_append_of_decode {bs rest : List Byte} {i : Instr} (h : decode bs = .ok (i, rest)) :
    encode i ++ rest = bs := by
  match bs, h with
  | b0 :: t, h =>
    cases hk : kindOf b0 <;> simp only [decode, hk] at h <;> obtain ⟨hlo, hhi⟩ := kindOf_eq_iff.1 hk
    case index => cases h; rw [encode_decodeIndex hhi]; rfl
    case diff => cases h; rw [encode_decodeDiff hlo hhi]; rfl
    case run => cases h; rw [encode_decodeRun hlo hhi]; rfl
    case luma => split at h <;> cases h; rw [encode_decodeLuma hlo hhi]; rfl
    case rgb => split at h <;> cases h; rw [byte_eq_FE_iff.2 (Nat.le_antisymm hhi hlo)]; rfl
    case rgba => split at h <;> cases h; rw [byte_eq_FF_iff.2 (Nat.le_antisymm hhi hlo)]; rfl

/-! ### Decoded operands are in range (R91, R93) -/

theorem wf_decodeDiff (b0 : Byte) : (decodeDiff b0).wf = true := by
  rw [decodeDiff_eq, wf_diff_iff]
  omega

theorem wf_decodeLuma (b0 b1 : Byte) : (decodeLuma b0 b1).wf = true := by
  have := b1.isLt
  rw [decodeLuma_eq, wf_luma_iff]
  omega

/-- The counts 63 and 64 would be the two 8-bit tags (R93). -/
theorem wf_decodeRun {b0 : Byte} (h : kindOf b0 = .run) : (decodeRun b0).wf = true := by
  have := toNat_of_kindOf_run h
  rw [decodeRun_eq, wf_run_iff]
  omega

theorem wf_of_decode {bs rest : List Byte} {i : Instr} (h : decode bs = .ok (i, rest)) : i.wf = true := by
  match bs, h with
  | b0 :: t, h =>
    cases hk : kindOf b0 <;> simp only [decode, hk] at h
    case index => cases h; rfl
    case diff => cases h; exact wf_decodeDiff b0
    case run => cases h; exact wf_decodeRun hk
    case luma => split at h <;> cases h; exact wf_decodeLuma b0 _
    case rgb | rgba => split at h <;> cases h; rfl

/-- Decoding fails only where the bytes run out (R92). -/
theorem nil_or_truncated_of_error {bs : List Byte} {r : DecodeReject} (h : decode bs = .error r) :
    bs = [] ∨ decode bs = .error .truncated := by
  match bs with
  | [] => exact .inl rfl
  | b0 :: t =>
    by_cases hl : chunkLength b0 ≤ t.length + 1
    · obtain ⟨i, hok, -, -⟩ := decode_of_le b0 t hl
      rw [hok] at h
      cases h
    · exact .inr (decode_of_lt b0 t (Nat.lt_of_not_le hl))

/-! ### A byte sequence chunk by chunk -/

/-- Induction along the split of a byte sequence: where no chunk decodes, and a chunk before a sequence that has the
property. -/
theorem chunk_induction {P : List Byte → Prop} (stop : ∀ bs r, decode bs = .error r → P bs)
    (chunk : ∀ bs i rest, decode bs = .ok (i, rest) → P rest → P bs) (bs : List Byte) : P bs := by
  induction hn : bs.length using Nat.strong_induction_on generalizing bs with
  | _ n ih =>
    cases hd : decode bs with
    | error r => exact stop bs r hd
    | ok x =>
      obtain ⟨i, rest⟩ := x
      obtain ⟨b0, t, -, -, hle, hrest, -⟩ := decode_ok_inv hd
      have := instr_length_pos i
      have hlt : rest.length < n := by rw [hrest, List.length_drop]; omega
      exact chunk bs i rest hd (ih _ hlt rest rfl)

theorem wf_of_mem_disassemble (bs : List Byte) : ∀ i ∈ (disassemble bs).1, i.wf = true := by
  induction bs using chunk_induction with
  | stop bs r hd =>
    rw [disassemble_of_error hd]
    exact List.forall_mem_nil _
  | chunk bs i rest hd ih =>
    rw [disassemble_of_decode hd]
    exact List.forall_mem_cons.2 ⟨wf_of_decode hd, ih⟩

theorem encode_disassemble (bs : List Byte) : (disassemble bs).1.flatMap encode ++ (disassemble bs).2 = bs := by
  induction bs using chunk_induction with
  | stop bs r hd => rw [disassemble_of_error hd, List.flatMap_nil, List.nil_append]
  | chunk bs i rest hd ih =>
    rw [disassemble_of_decode hd, List.flatMap_cons, List.append_assoc, ih, encode_append_of_decode hd]

theorem disassemble_tail (bs : List Byte) :
    (disassemble bs).2 = [] ∨ decode (disassemble bs).2 = .error .truncated := by
  induction bs using chunk_induction with
  | stop bs r hd =>
    rw [disassemble_of_error hd]
    exact nil_or_truncated_of_error hd
  | chunk bs i rest hd ih =>
    rw [disassemble_of_decode hd]
    exact ih

/-- The split is the only one: chunks and a tail that holds no whole chunk are found again. -/
theorem disassemble_encode_append {is : List Instr} {tail : List Byte} (hwf : ∀ i ∈ is, i.wf = true)
    (htail : tail = [] ∨ decode tail = .error .truncated) : disassemble (is.flatMap encode ++ tail) = (is, tail) := by
  induction is with
  | nil =>
    obtain rfl | herr := htail
    · rfl
    · exact disassemble_of_error herr
  | cons i is ih =>
    obtain ⟨hi, his⟩ := List.forall_mem_cons.1 hwf
    rw [List.flatMap_cons, List.append_assoc, disassemble_of_decode (decode_encode_append hi _), ih his]

/-! ### The assembler's programs (R95) -/

theorem assemble_of_wf {is : List Instr} (h : ∀ i ∈ is, i.wf = true) : assemble is = some (is.flatMap encode) :=
  if_pos (List.all_eq_true.2 h)

theorem assemble_eq_some_iff {is : List Instr} {bs : List Byte} :
    assemble is = some bs ↔ (∀ i ∈ is, i.wf = true) ∧ is.flatMap encode = bs := by
  rw [assemble, Option.ite_none_right_eq_some, List.all_eq_true, Option.some_inj]

/-- Settles O2: existence by induction along the split, uniqueness by induction on the chunks, and from these the two
inverses. -/
theorem disassemblyTotalUniqueInverse : Obligations.DisassemblyTotalUniqueInverse := by
  unfold Obligations.DisassemblyTotalUniqueInverse
  refine ⟨fun bs => ⟨wf_of_mem_disassemble bs, encode_disassemble bs, disassemble_tail bs⟩,
    fun is tail => disassemble_encode_append, fun is bs h => ?_, fun bs htail => ?_⟩
  · obtain ⟨hwf, rfl⟩ := assemble_eq_some_iff.1 h
    have hsplit := disassemble_encode_append hwf (.inl rfl)
    rwa [List.append_nil] at hsplit
  · have hbytes := encode_disassemble bs
    rw [htail, List.append_nil] at hbytes
    exact assemble_eq_some_iff.2 ⟨wf_of_mem_disassemble bs, hbytes⟩

end Sys2Proof
end

section
/-!
The assembler's lines: what a line parses to, and when a program is refused (30_encoding.md R95).
-/
namespace Sys2Proof

/-! ### Operands -/

theorem inRange_iff {x lo hi : Int} : inRange x lo hi = true ↔ lo ≤ x ∧ x ≤ hi := by
  rw [inRange, Bool.and_eq_true, decide_eq_true_eq, decide_eq_true_eq]

theorem componentOf_eq_some_iff {v : Int} {b : Byte} : componentOf v = some b ↔ (b.toNat : Int) = v := by
  have hlt := b.isLt
  rw [componentOf, Option.ite_none_right_eq_some, inRange_iff, Option.some_inj]
  constructor
  · rintro ⟨⟨hlo, hhi⟩, rfl⟩
    exact toNat_byteOf v hlo (by omega)
  · rintro rfl
    exact ⟨by omega, byteOf_eq rfl⟩

@[simp] theorem componentOf_toNat (b : Byte) : componentOf (b.toNat : Int) = some b := componentOf_eq_some_iff.2 rfl

/-! ### Lines -/

/-- The line of a chunk parses back to it where it is in range, and is refused otherwise. -/
theorem parseLine_line (i : Instr) : parseLine i.line = if i.wf then some i else none := by
  cases i with
  | rgb r g b => simp only [Instr.line, parseLine, componentOf_toNat, Instr.wf, if_true]
  | rgba r g b a => simp only [Instr.line, parseLine, componentOf_toNat, Instr.wf, if_true]
  | index i =>
    have hrange : inRange (i.val : Int) 0 63 = true := inRange_iff.2 (by omega)
    simp only [Instr.line, parseLine, hrange, Instr.wf, if_true, Int.toNat_natCast, Fin.ofNat_val_eq_self]
  | diff dr dg db => rfl
  | luma dg drg dbg => rfl
  | run count =>
    have hrange : inRange (count : Int) 1 62 = (Instr.run count).wf := by
      rw [Bool.eq_iff_iff, inRange_iff, wf_run_iff]
      omega
    simp only [Instr.line, parseLine, hrange, Int.toNat_natCast]

/-- Nothing parses but the line of a well-formed chunk. -/
theorem line_of_parseLine {l : AsmLine} {i : Instr} (h : parseLine l = some i) : i.wf = true ∧ i.line = l := by
  unfold parseLine at h
  split at h
  -- RUN
  case h_1 n =>
    obtain ⟨hrange, hi⟩ := Option.ite_none_right_eq_some.1 h
    cases hi
    obtain ⟨hlo, hhi⟩ := inRange_iff.1 hrange
    refine ⟨(wf_run_iff _).2 (by omega), ?_⟩
    rw [Instr.line, Int.toNat_of_nonneg (by omega)]
  -- INDEX
  case h_2 v =>
    obtain ⟨hrange, hi⟩ := Option.ite_none_right_eq_some.1 h
    cases hi
    obtain ⟨hlo, hhi⟩ := inRange_iff.1 hrange
    have hslot : (Fin.ofNat 64 v.toNat).val = v.toNat := Nat.mod_eq_of_lt (by omega)
    refine ⟨rfl, ?_⟩
    rw [Instr.line, hslot, Int.toNat_of_nonneg hlo]
  -- DIFF and LUMA
  case h_3 | h_4 =>
    obtain ⟨hwf, hi⟩ := Option.ite_none_right_eq_some.1 h
    cases hi
    exact ⟨hwf, rfl⟩
  -- RGB
  case h_5 =>
    split at h
    case h_1 hr hg hb =>
      cases h
      rw [componentOf_eq_some_iff] at hr hg hb
      exact ⟨rfl, by rw [Instr.line, hr, hg, hb]⟩
    case h_2 => cases h
  -- RGBA
  case h_6 =>
    split at h
    case h_1 hr hg hb ha =>
      cases h
      rw [componentOf_eq_some_iff] at hr hg hb ha
      exact ⟨rfl, by rw [Instr.line, hr, hg, hb, ha]⟩
    case h_2 => cases h
  -- any other line
  case h_7 => cases h

/-- A program with a chunk out of range is refused. -/
theorem assemble_of_not_wf {is : List Instr} (h : ∃ i ∈ is, i.wf = false) : assemble is = none := by
  rw [assemble, List.all_eq_false.2 (by simpa using h)]
  rfl

/-- Settles O9: the lines by definition, parsing from both sides, and the program by its chunks. -/
theorem assemblerLinesExact : Obligations.AssemblerLinesExact := by
  unfold Obligations.AssemblerLinesExact
  exact ⟨fun _ => rfl, fun _ => rfl, fun _ _ _ => rfl, fun _ _ _ => rfl, fun _ _ _ => rfl, fun _ _ _ _ => rfl,
    parseLine_line, fun _ _ => line_of_parseLine, fun _ => assemble_of_wf, fun _ => assemble_of_not_wf⟩

end Sys2Proof
end

section
/-!
PACK32, UNPACK32 and the signed reading of a word (40_be32_pack.md R111 to R114).
-/
namespace Sys2Proof.Machine

/-! ### The signed reading (R112, R113) -/

theorem wordSigned_of_lt {w : Word32} (h : w.toNat < 2 ^ 31) : wordSigned w = (w.toNat : Int) :=
  if_pos h

theorem wordSigned_of_le {w : Word32} (h : 2 ^ 31 ≤ w.toNat) : wordSigned w = (w.toNat : Int) - 2 ^ 32 :=
  if_neg (Nat.not_lt.2 h)

/-- R112: the pattern of a signed operand is its residue modulo `2^32`. -/
theorem toNat_wordOfSigned (v : Int) : ((wordOfSigned v).toNat : Int) = v % 2 ^ 32 := by
  have hnonneg : 0 ≤ v % 2 ^ 32 := Int.emod_nonneg v (by decide)
  rw [wordOfSigned, BitVec.toNat_ofInt]
  exact Int.toNat_of_nonneg hnonneg

/-- The two readings of a word differ by a multiple of `2^32`. -/
theorem wordSigned_emod (w : Word32) : wordSigned w % 2 ^ 32 = (w.toNat : Int) := by
  have hw := w.isLt
  rcases Nat.lt_or_ge w.toNat (2 ^ 31) with h | h
  · rw [wordSigned_of_lt h]
    omega
  · rw [wordSigned_of_le h]
    omega

/-- R113: the pattern of the signed reading is the word itself. -/
theorem wordOfSigned_wordSigned (w : Word32) : wordOfSigned (wordSigned w) = w := by
  apply BitVec.eq_of_toNat_eq
  have hpattern := (toNat_wordOfSigned (wordSigned w)).trans (wordSigned_emod w)
  exact_mod_cast hpattern

/-! ### The three statements -/

/-- Settles O10: the value and the lanes of the unpacked word, the lanes that packing reads, and the residue of a
signed operand. -/
theorem packUnpackLanes : Obligations.PackUnpackLanes := by
  unfold Obligations.PackUnpackLanes
  refine ⟨fun s => ⟨toNat_unpack32 s, lanes_unpack32 s⟩, fun w => ?_, toNat_wordOfSigned⟩
  rw [pack32_eq_lanes]
  exact ⟨rfl, rfl, rfl, rfl⟩

/-- Settles O11: each operation reads the lanes that the other one wrote. -/
theorem packUnpackRoundTrip : Obligations.PackUnpackRoundTrip :=
  ⟨pack32_unpack32, unpack32_pack32⟩

/-- Settles O12: the two cases of the signed reading, and its pattern, which packing therefore cannot tell from the
word. -/
theorem signedReadingIsAView : Obligations.SignedReadingIsAView := fun w =>
  ⟨wordSigned_of_lt, wordSigned_of_le, wordOfSigned_wordSigned w, congrArg pack32 (wordOfSigned_wordSigned w)⟩

end Sys2Proof.Machine
end

section
/-!
HASH and the pixel cache (41_pixel_cache.md R120 to R126).
-/
namespace Sys2Proof.Machine

/-! ### HASH in arithmetic of a finite width (R120, R121) -/

/-- R121: a register of at least six bits keeps the residue modulo 64, because 64 divides `2^k`. -/
theorem toNat_ofNat_mod_64 {k : Nat} (hk : 6 ≤ k) (n : Nat) : (BitVec.ofNat k n).toNat % 64 = n % 64 := by
  have hdvd : 64 ∣ 2 ^ k := pow_dvd_pow 2 hk
  rw [BitVec.toNat_ofNat, Nat.mod_mod_of_dvd n hdvd]

/-! ### The reset cache (R28, R123) -/

theorem cacheRead_resetCache (i : Slot) :
    cacheRead i resetCache = if i = 53 then Config.start else Config.zero := by
  simp only [cacheRead, resetCache, Fin.getElem_fin, Vector.getElem_set, Vector.getElem_replicate, Fin.ext_iff,
    eq_comm (a := 53)]
  rfl

/-- R123: from reset a lookup hits exactly where the pixel is the one that its slot was reset to. -/
theorem cacheLookup_resetCache_iff (p : Pixel) :
    cacheLookup p resetCache = true ↔ p = Config.zero ∨ p = Config.start := by
  rw [cacheLookup_iff]
  constructor
  · intro hhit
    rw [cacheRead_resetCache] at hhit
    split at hhit
    · exact .inr hhit.symm
    · exact .inl hhit.symm
  · rintro (rfl | rfl)
    · decide
    · decide

/-! ### The cache write (R125, R126) -/

/-- R125: a slot that is not the pixel's own is left alone. -/
theorem cacheRead_cacheWrite_of_ne {p : Pixel} {i : Slot} (h : i ≠ hash p) (C : Cache) :
    cacheRead i (cacheWrite p C) = cacheRead i C := by
  rw [cacheRead_cacheWrite, if_neg h.symm]

/-- R126: a write made only on a miss is the write made always. -/
theorem cacheWrite_on_miss (p : Pixel) (C : Cache) :
    (if cacheLookup p C then C else cacheWrite p C) = cacheWrite p C := by
  split
  case isTrue hhit => exact (cacheWrite_of_cached p C ((cacheLookup_iff p C).1 hhit)).symm
  case isFalse => rfl

/-! ### The three statements -/

/-- Settles O14: the sum by definition; of any width, the sum of the truncated terms is the truncated sum, whose residue
modulo 64 the width keeps. -/
theorem hashIndependentOfWidth : Obligations.HashIndependentOfWidth := by
  unfold Obligations.HashIndependentOfWidth
  refine fun p => ⟨rfl, fun k hk => ?_⟩
  simp only [← BitVec.ofNat_mul, ← BitVec.ofNat_add]
  exact toNat_ofNat_mod_64 hk _

/-- Settles O16: the contents of the reset cache slot by slot, and the pixels that are in their own slot there. -/
theorem resetCacheHitsExactly : Obligations.ResetCacheHitsExactly := by
  unfold Obligations.ResetCacheHitsExactly
  refine ⟨fun i hi => ?_, rfl, cacheLookup_iff, cacheLookup_resetCache_iff⟩
  rw [cacheRead_resetCache, if_neg hi]
  rfl

/-- Settles O15: the slot written, the slots left alone, and the write that a hit would make redundant. -/
theorem cacheWriteOwnSlotOnly : Obligations.CacheWriteOwnSlotOnly := fun p C =>
  ⟨cacheRead_cacheWrite_self p C, fun _ hi => cacheRead_cacheWrite_of_ne hi C, cacheWrite_on_miss p C⟩

end Sys2Proof.Machine
end

section
/-!
ENC's commands as exact steps, and the bytes they append (42_chunk_encoder.md R136 to R150).
-/
namespace Sys2Proof

/-! ### Chunks as syntax -/

theorem encode_index (i : Slot) : encode (.index i) = [BitVec.ofNat 8 i.val] := by
  rw [encode, byteOf_natCast]

theorem instr_length_eq_kind (i : Instr) : i.length = i.kind.length := by
  cases i <;> rfl

/-- No well-formed chunk represents more than 62 pixels a byte (R93). -/
theorem pixels_le_of_wf {i : Instr} (h : i.wf = true) : i.pixels ≤ 62 * i.length := by
  cases i with
  | run count => exact ((wf_run_iff count).1 h).2
  | rgb | rgba | index | diff | luma => simp [Instr.pixels, Instr.length]

end Sys2Proof

namespace Sys2Proof.Machine

/-! ### The encoder's choice of a chunk, case by case (R139 to R145) -/

theorem selectChunk_of_hit {P : Pixel} {e : EncCtx} (h : cacheRead (hash P) e.C = P) :
    selectChunk P e = .index (hash P) :=
  if_pos ((cacheLookup_iff P e.C).2 h)

theorem selectChunk_of_miss {P : Pixel} {e : EncCtx} (h : cacheRead (hash P) e.C ≠ P) :
    selectChunk P e = selectMiss P e.prev :=
  if_neg (mt (cacheLookup_iff P e.C).1 h)

theorem selectMiss_of_alpha_ne {P prev : Pixel} (ha : P.a ≠ prev.a) : selectMiss P prev = .rgba P.r P.g P.b P.a :=
  if_neg ha

theorem selectMiss_of_fitsDiff {P prev : Pixel} (ha : P.a = prev.a)
    (hd : fitsDiff (delta P.r prev.r) (delta P.g prev.g) (delta P.b prev.b) = true) :
    selectMiss P prev = .diff (delta P.r prev.r) (delta P.g prev.g) (delta P.b prev.b) := by
  rw [selectMiss, if_pos ha, if_pos hd]

theorem selectMiss_of_fitsLuma {P prev : Pixel} (ha : P.a = prev.a)
    (hd : ¬ fitsDiff (delta P.r prev.r) (delta P.g prev.g) (delta P.b prev.b) = true)
    (hl : fitsLuma (delta P.r prev.r) (delta P.g prev.g) (delta P.b prev.b) = true) :
    selectMiss P prev =
      .luma (delta P.g prev.g) (delta P.r prev.r - delta P.g prev.g) (delta P.b prev.b - delta P.g prev.g) := by
  rw [selectMiss, if_pos ha, if_neg hd, if_pos hl]

theorem selectMiss_of_not_fits {P prev : Pixel} (ha : P.a = prev.a)
    (hd : ¬ fitsDiff (delta P.r prev.r) (delta P.g prev.g) (delta P.b prev.b) = true)
    (hl : ¬ fitsLuma (delta P.r prev.r) (delta P.g prev.g) (delta P.b prev.b) = true) :
    selectMiss P prev = .rgb P.r P.g P.b := by
  rw [selectMiss, if_pos ha, if_neg hd, if_neg hl]

/-! ### The commands as one update of the context -/

theorem encodePixel_of_prev (e : EncCtx) : encodePixel e.prev e = extendRun e :=
  if_pos rfl

theorem extendRun_of_full {e : EncCtx} (h : e.run + 1 = 62) :
    extendRun e = { e with Out := e.Out ++ [0xFD], run := 0 } :=
  if_pos h

theorem extendRun_of_not_full {e : EncCtx} (h : e.run + 1 ≠ 62) : extendRun e = { e with run := e.run + 1 } :=
  if_neg h

/-- The cache is written on a hit as well: the slot already holds the pixel (R126). -/
theorem encodePixel_of_ne {P : Pixel} {e : EncCtx} (h : P ≠ e.prev) :
    encodePixel P e =
      { e with
        prev := P
        run := 0
        C := cacheWrite P e.C
        Out := e.Out ++ (if 0 < e.run then [BitVec.ofNat 8 (0xC0 + (e.run - 1))] else []) ++
          encode (selectChunk P e) } := by
  rw [encodePixel, if_neg h, emitChunk, cacheWrite_on_miss, selectChunk_flushRun, flushRun_eq]
  rfl

/-- Settles O32: a pixel equal to `prev` only extends the run, below 62 and at 62. -/
theorem encRunExtension : Obligations.EncRunExtension := by
  unfold Obligations.EncRunExtension
  intro s hready
  rw [step_of_encPixelReady hready, encodePixel_of_prev]
  exact ⟨fun hrun => by rw [extendRun_of_not_full hrun], fun hrun => by rw [extendRun_of_full hrun]⟩

/-- Settles O33: on a hit the chunk is INDEX, and writing the pixel to a slot that holds it leaves the cache. -/
theorem encIndexSelected : Obligations.EncIndexSelected := by
  unfold Obligations.EncIndexSelected
  intro s P hready hne hhit
  rw [step_of_encPixelReady hready, encodePixel_of_ne hne, selectChunk_of_hit hhit, encode_index,
    cacheWrite_of_cached P s.enc.C hhit]

/-- Settles O34: on a miss the chunk is the one that the alpha test and the two range tests select, the tests read as
inequalities between the signed readings of the wrapped differences. -/
theorem encMissSelection : Obligations.EncMissSelection := by
  unfold Obligations.EncMissSelection
  intro s P hready hne hmiss
  simp only [← delta_eq_toInt, ← fitsDiff_iff, ← fitsLuma_iff]
  refine ⟨encode (selectMiss P s.enc.prev), ?_, fun ha => ?_, fun ha hd => ?_, fun ha hd hl => ?_, fun ha hd hl => ?_⟩
  · rw [step_of_encPixelReady hready, encodePixel_of_ne hne, selectChunk_of_miss hmiss]
  · rw [selectMiss_of_alpha_ne ha, encode]
  · rw [selectMiss_of_fitsDiff ha hd, encode, byteOf]
  · rw [selectMiss_of_fitsLuma ha hd hl, encode, byteOf, byteOf]
  · rw [selectMiss_of_not_fits ha hd hl, encode]

/-- Settles O35: the flush of `EncFinish`, with and without a pending run. -/
theorem encFinishFlushes : Obligations.EncFinishFlushes := by
  unfold Obligations.EncFinishFlushes
  intro s hready
  rw [step_of_encFinishReady hready, finishEnc, flushRun_eq]
  refine ⟨fun hpending => ?_, fun hnone => ?_⟩
  · rw [if_pos hpending]
  · rw [if_neg (Nat.not_lt.2 (Nat.le_of_eq hnone)), List.append_nil, ← hnone]

/-! ### How many bytes a command appends (R148) -/

theorem length_finishEnc_Out (e : EncCtx) :
    (finishEnc e).Out.length = e.Out.length + if 0 < e.run then 1 else 0 := by
  rw [finishEnc_Out, flushRun_eq, List.length_append, apply_ite List.length]
  rfl

/-- A pixel other than `prev` costs a byte for a pending run, as `EncFinish` does, and its chunk. -/
theorem length_encodePixel_Out_of_ne {P : Pixel} {e : EncCtx} (h : P ≠ e.prev) :
    (encodePixel P e).Out.length = (finishEnc e).Out.length + (selectChunk P e).kind.length := by
  rw [encodePixel_of_ne h, finishEnc_Out, flushRun_eq, List.length_append, encode_length, instr_length_eq_kind]

/-- With the byte of a pending run counted when the run begins, no pixel costs more than five bytes. -/
theorem length_finishEnc_encodePixel_le (P : Pixel) (e : EncCtx) :
    (finishEnc (encodePixel P e)).Out.length ≤ (finishEnc e).Out.length + 5 := by
  by_cases hP : P = e.prev
  · subst hP
    rw [encodePixel_of_prev, length_finishEnc_Out, length_finishEnc_Out]
    by_cases hrun : e.run + 1 = 62
    · rw [extendRun_of_full hrun, List.length_append, List.length_singleton]
      dsimp only
      split_ifs <;> omega
    · rw [extendRun_of_not_full hrun]
      dsimp only
      split_ifs <;> omega
  · have hchunk : (selectChunk P e).kind.length ≤ 5 := by
      cases (selectChunk P e).kind <;> decide
    rw [length_finishEnc_Out, length_encodePixel_Out_of_ne hP, encodePixel_of_ne hP]
    exact Nat.add_le_add_left hchunk _

theorem length_finishEnc_encodePixels_le (Px : List Pixel) (e : EncCtx) :
    (finishEnc (encodePixels Px e)).Out.length ≤ (finishEnc e).Out.length + 5 * Px.length := by
  induction Px generalizing e with
  | nil => exact Nat.le_refl _
  | cons P Px ih =>
    have hhead := length_finishEnc_encodePixel_le P e
    have htail := ih (encodePixel P e)
    rw [encodePixels_cons, List.length_cons]
    omega

theorem length_encodeBody_le (Px : List Pixel) : (encodeBody Px).length ≤ 5 * Px.length := by
  have hbound := length_finishEnc_encodePixels_le Px EncCtx.reset
  have hreset : (finishEnc EncCtx.reset).Out = [] := rfl
  rwa [hreset, List.length_nil, Nat.zero_add] at hbound

/-- A body's chunks represent all its pixels, at most 62 of them a byte. -/
theorem pixels_le_length_encodeBody (Px : List Pixel) : Px.length ≤ 62 * (encodeBody Px).length := by
  have hwf := chunksOf_wf Px EncCtx.reset (Nat.zero_le 61)
  have hpixels : ((chunksOf Px EncCtx.reset).map Instr.pixels).sum = Px.length :=
    (chunksOf_pixels Px EncCtx.reset).trans (Nat.zero_add _)
  rw [encodeBody_eq, length_flatMap_encode, ← List.sum_map_mul_left, ← hpixels]
  exact List.sum_le_sum fun i hi => pixels_le_of_wf (hwf i hi)

/-- Settles O36: the bytes of each command from its update of `Out`; above, by induction with the pending run's byte
counted in; below, by the pixels that a body's chunks represent. -/
theorem encBytesPerCommand : Obligations.EncBytesPerCommand := by
  unfold Obligations.EncBytesPerCommand
  refine ⟨fun e P => ⟨?_, ?_, fun hP => ⟨selectChunk_kind P e, ?_⟩⟩, length_finishEnc_Out,
    fun Px => ⟨length_encodeBody_le Px, pixels_le_length_encodeBody Px⟩⟩
  · rintro rfl hrun
    rw [encodePixel_of_prev, extendRun_of_not_full hrun]
  · rintro rfl hrun
    rw [encodePixel_of_prev, extendRun_of_full hrun, List.length_append, List.length_singleton]
  · have hkind := selectChunk_kind P e
    rw [length_encodePixel_Out_of_ne hP, length_finishEnc_Out]
    cases hk : (selectChunk P e).kind
    case run => exact absurd hk hkind
    case rgb | rgba | index | diff | luma => rfl

end Sys2Proof.Machine
end

section
/-!
DEC's chunks other than INDEX as exact updates of the state, and how a `DecStep` begins and ends (43_chunk_decoder.md
R171, R175 to R180).
-/
namespace Sys2Proof.Machine

/-! ### Chunks of one pixel (R175 to R178) -/

/-- A chunk other than RUN completes from every state: its one pixel produced, the cursor past it, the rest as it was. -/
theorem exec_of_kind_ne_run {i : Instr} {p : Pixel} {s : State} (hkind : i.kind ≠ .run) (hp : pixelsOf i s.dec = [p]) :
    exec i s =
      .next
        { s with
          dec :=
            { s.dec with
              PxOut := s.dec.PxOut ++ [p]
              opos := s.dec.opos + 1
              C := cacheWrite p s.dec.C
              prev := p
              cur := s.dec.cur + i.length } } := by
  rw [exec_of_not_overruns i s (not_overruns_of_kind hkind), play_eq, ← pixelsOf_length i s.dec, hp]
  rfl

/-- Settles O20: the pixel is the previous one moved by the three differences. -/
theorem diffExecution : Obligations.DiffExecution := by
  unfold Obligations.DiffExecution
  intro dr dg db s
  exact ⟨movedPixel s.dec.prev dr dg db, toNat_addDelta _ _, toNat_addDelta _ _, toNat_addDelta _ _, rfl,
    exec_of_kind_ne_run nofun rfl⟩

/-- Settles O21: as DIFF, with `dg` added to the red and blue fields before the one reduction. -/
theorem lumaExecution : Obligations.LumaExecution := by
  unfold Obligations.LumaExecution
  intro dg drg dbg s
  exact ⟨movedPixel s.dec.prev (drg + dg) dg (dbg + dg), toNat_addDelta _ _, toNat_addDelta _ _, toNat_addDelta _ _, rfl,
    exec_of_kind_ne_run nofun rfl⟩

/-- Settles O17: the pixel is made of the chunk's three bytes and the previous alpha. -/
theorem rgbExecution : Obligations.RgbExecution := by
  unfold Obligations.RgbExecution
  intro r g b s
  exact exec_of_kind_ne_run nofun rfl

/-- Settles O18: the pixel is made of the chunk's four bytes. -/
theorem rgbaExecution : Obligations.RgbaExecution := by
  unfold Obligations.RgbaExecution
  intro r g b a s
  exact exec_of_kind_ne_run nofun rfl

/-! ### RUN (R179) -/

/-- A RUN of at least one pixel leaves `prev` as it was and writes its slot once. -/
theorem play_run_eq {count : Nat} (h : 1 ≤ count) (s : State) :
    play (.run count) s =
      { s with
        dec :=
          { s.dec with
            PxOut := s.dec.PxOut ++ List.replicate count s.dec.prev
            opos := s.dec.opos + count
            C := cacheWrite s.dec.prev s.dec.C
            cur := s.dec.cur + 1 } } := by
  have hlast : (List.replicate count s.dec.prev).getLastD s.dec.prev = s.dec.prev := by
    cases count <;> simp [List.replicate_succ']
  simp only [play_eq, pixelsOf, foldl_cacheWrite_replicate, if_neg (Nat.ne_of_gt h), hlast, Instr.pixels, Instr.length]

/-- Settles O22: the pixels repeat `prev`, so that all cache writes are one, and none where `prev` stands in its slot;
the overrun is tested before them. -/
theorem runExecution : Obligations.RunExecution := by
  unfold Obligations.RunExecution
  intro count s hcount
  have hfits (hle : s.dec.opos + count ≤ s.dec.N) : exec (.run count) s = .next (play (.run count) s) :=
    exec_of_not_overruns _ s (not_overruns_of_le hle)
  refine ⟨fun hle => ?_, fun hle hcached => ?_, fun hlt => ?_⟩
  · rw [hfits hle, play_run_eq hcount]
  · rw [hfits hle, play_run_eq hcount, cacheWrite_of_cached _ _ hcached]
  · exact exec_of_overruns _ s ⟨count, rfl, hlt⟩

/-! ### How a `DecStep` begins and ends (R171, R180) -/

theorem decStep_eq_execAndCheck {s : State} {i : Instr} (hup : s.decUp = true) (hact : s.dec.phase = .active)
    (hfetch : fetchInstr s.dec = .ok i) : decStep s = execAndCheck i s := by
  obtain ⟨t, ht⟩ := exec_next i s
  rw [decStep_of_fetch hup hact hfetch ht, execAndCheck_of_exec ht]

/-- Settles O26: what the bytes from `cur` on decode to says how the step begins. -/
theorem fetchBounds : Obligations.FetchBounds := by
  unfold Obligations.FetchBounds
  intro s hready
  have ⟨_, hup, hact⟩ := hready
  rw [step_of_decReady hready]
  refine ⟨fun hend => ?_, fun b0 hb0 => ⟨fun hshort => ?_, fun hwhole => ?_⟩⟩
  · exact decStep_of_error (s := takeCommand s) hup hact (decode_at_end hend)
  · exact decStep_of_error (s := takeCommand s) hup hact (decode_at_truncated hb0 hshort)
  · obtain ⟨i, hdecode, hlength, hbytes⟩ := decode_at_whole hb0 hwhole
    exact ⟨i, hbytes, hlength, decStep_eq_execAndCheck hup hact (fetchInstr_of_decode hdecode)⟩

/-- Settles O25: the two tests of the end check, in its three cases. -/
theorem endCheckOutcomes : Obligations.EndCheckOutcomes := by
  unfold Obligations.EndCheckOutcomes endCheck
  intro s hact
  refine ⟨fun hpixels hbytes => ?_, fun hpixels hbytes => ?_, fun hpixels => ?_⟩
  · rw [if_pos ⟨hact, hpixels⟩, if_pos hbytes]
  · rw [if_pos ⟨hact, hpixels⟩, if_neg hbytes]
  · exact if_neg fun hall => hpixels hall.2

end Sys2Proof.Machine
end

section
/-!
DEC on a body made of whole chunks, and with it on every body ENC makes: the round trip, the length check, injectivity
(44_laws.md R202 to R205).
-/
namespace Sys2Proof.Machine

/-! ### Reconstruction (R202) -/

/-- Settles O43: a miss chunk is no RUN, so that it completes, and the pixel it produces is the one it was selected for. -/
theorem reconstructionExact : Obligations.ReconstructionExact := by
  unfold Obligations.ReconstructionExact
  refine ⟨addDelta_delta, fun P s t hexec => ?_⟩
  rw [exec_of_kind_ne_run (selectMiss_kind P s.dec.prev) (pixelsOf_selectMiss P s.dec)] at hexec
  cases hexec
  exact ⟨rfl, rfl⟩

/-! ### One `DecStep` on a body of whole chunks -/

/-- A decode in progress whose remaining bytes are exactly the encoding of `is`. -/
structure Reads (is : List Instr) (s : State) : Prop where
  up : s.decUp = true
  active : s.dec.phase = .active
  err : s.dec.err = .noFault
  room : s.dec.opos < s.dec.N
  bytes : s.dec.In.drop s.dec.cur = is.flatMap encode

/-- The decode has ended in DecodeLengthMismatch. -/
def Mismatched (s : State) : Prop := s.dec.phase = .fault ∧ s.dec.err = .decodeLengthMismatch

/-- The state that the end check leaves on success (R180). -/
def finished (s : State) : State := { s with dec := { s.dec with phase := .done } }

theorem Mismatched.ne_active {s : State} (h : Mismatched s) : s.dec.phase ≠ .active := by
  rw [h.1]
  nofun

theorem finished_ne_active (s : State) : (finished s).dec.phase ≠ .active := DecPhase.noConfusion

theorem reads_decReset {is : List Instr} {N : Nat} (hN : 1 ≤ N) :
    Reads is (decReset N (is.flatMap encode) State.reset) := by
  rw [decReset_reset N _ hN]
  exact ⟨rfl, rfl, rfl, hN, rfl⟩

theorem reads_play {i : Instr} {is : List Instr} {s : State} (h : Reads (i :: is) s)
    (hroom : s.dec.opos + i.pixels < s.dec.N) : Reads is (play i s) where
  up := by rw [play_decUp, h.up]
  active := by rw [play_phase, h.active]
  err := by rw [play_err, h.err]
  room := by rwa [play_opos, play_N]
  bytes := by
    rw [play_In, play_cur, ← List.drop_drop, h.bytes, List.flatMap_cons, ← encode_length, List.drop_left]

/-- With no chunk left and pixels missing, the step ends in the fault. -/
theorem decStep_of_reads_nil {s : State} (h : Reads [] s) : ∃ t, decStep s = .next t ∧ Mismatched t := by
  obtain ⟨t, hstep, ⟨r, -, hfault⟩ | ⟨i, hdecode, -⟩⟩ := decStep_outcomes h.up h.active h.err h.room
  · exact ⟨t, hstep, hfault⟩
  · rw [h.bytes] at hdecode
    cases hdecode

theorem eq_nil_of_flatMap_encode {is : List Instr} (h : is.flatMap encode = []) : is = [] := by
  cases is with
  | nil => rfl
  | cons i is =>
    have hpos := instr_length_pos i
    have hlength := congrArg List.length h
    rw [List.flatMap_cons, List.length_append, encode_length, List.length_nil] at hlength
    omega

theorem pixels_sum_pos {is : List Instr} (hwf : ∀ i ∈ is, i.wf = true) (h : is ≠ []) :
    1 ≤ (is.map Instr.pixels).sum := by
  obtain ⟨i, is, rfl⟩ := List.exists_cons_of_ne_nil h
  have hpos := pixels_pos_of_wf (hwf i List.mem_cons_self)
  rw [List.map_cons, List.sum_cons]
  omega

/-- With a chunk at the cursor: it is played and the decode goes on; or it was the last and its pixels were the missing
ones; or the step ends in the fault, and the chunks left do not represent the pixels missing. -/
theorem decStep_of_reads_cons {i : Instr} {is : List Instr} {s : State} (hwf : ∀ j ∈ i :: is, j.wf = true)
    (h : Reads (i :: is) s) :
    ∃ t, decStep s = .next t ∧
      ((t = play i s ∧ Reads is t) ∨
        (is = [] ∧ s.dec.opos + i.pixels = s.dec.N ∧ t = finished (play i s)) ∨
        (Mismatched t ∧ s.dec.opos + ((i :: is).map Instr.pixels).sum ≠ s.dec.N)) := by
  have hchunk : decode (s.dec.In.drop s.dec.cur) = .ok (i, is.flatMap encode) := by
    rw [h.bytes, List.flatMap_cons, decode_encode_append (hwf i List.mem_cons_self)]
  obtain ⟨t, hstep, houtcome⟩ := decStep_outcomes h.up h.active h.err h.room
  refine ⟨t, hstep, ?_⟩
  obtain ⟨r, hdecode, -⟩ | ⟨j, hdecode, hcur, houtcome⟩ := houtcome
  · rw [hchunk] at hdecode
    cases hdecode
  rw [hchunk, Except.ok.injEq, Prod.mk.injEq] at hdecode
  obtain ⟨rfl, hrest⟩ := hdecode
  rw [List.map_cons, List.sum_cons]
  obtain ⟨hover, hfault⟩ | ⟨hlast, htrailing, hfault⟩ | ⟨hlast, hend, rfl⟩ | ⟨hroom, rfl⟩ := houtcome
  · exact .inr (.inr ⟨hfault, by omega⟩)
  · have hne : is ≠ [] := by
      rintro rfl
      exact absurd (List.drop_eq_nil_iff.1 hrest.symm) (Nat.not_le.2 htrailing)
    have hpos := pixels_sum_pos (fun j hj => hwf j (List.mem_cons_of_mem i hj)) hne
    exact .inr (.inr ⟨hfault, by omega⟩)
  · exact .inr (.inl ⟨eq_nil_of_flatMap_encode (hrest.trans (List.drop_eq_nil_of_le hend.ge)), hlast.symm, rfl⟩)
  · exact .inl ⟨rfl, reads_play h hroom⟩

/-! ### The whole decode -/

theorem decodeWhileActive_of_last {s t : State} (k : Nat) (hact : s.dec.phase = .active) (hstep : decStep s = .next t)
    (hend : t.dec.phase ≠ .active) : decodeWhileActive (k + 1) s = t := by
  rw [decodeWhileActive_succ k hact hstep, decodeWhileActive_stop k hend]

/-- A number of steps that covers the pixels missing is not 0. -/
theorem Reads.fuel_eq_succ {is : List Instr} {s : State} {k : Nat} (h : Reads is s) (hk : s.dec.N ≤ s.dec.opos + k) :
    ∃ k', k = k' + 1 := by
  have hroom := h.room
  exact Nat.exists_eq_succ_of_ne_zero (by omega)

/-- A decode of whole chunks ends in DONE with all of them played where they represent the pixels missing, and in the
fault otherwise. Every chunk played produces a pixel, so that as many steps as pixels are missing are enough. -/
theorem decodeWhileActive_of_reads {is : List Instr} {s : State} {k : Nat} (hwf : ∀ i ∈ is, i.wf = true)
    (h : Reads is s) (hk : s.dec.N ≤ s.dec.opos + k) :
    (s.dec.opos + (is.map Instr.pixels).sum = s.dec.N → decodeWhileActive k s = finished (playAll is s)) ∧
      (s.dec.opos + (is.map Instr.pixels).sum ≠ s.dec.N → Mismatched (decodeWhileActive k s)) := by
  induction is generalizing s k with
  | nil =>
    obtain ⟨k, rfl⟩ := h.fuel_eq_succ hk
    obtain ⟨t, hstep, hfault⟩ := decStep_of_reads_nil h
    rw [decodeWhileActive_of_last k h.active hstep hfault.ne_active]
    exact ⟨fun hall => absurd hall h.room.ne, fun _ => hfault⟩
  | cons i is ih =>
    obtain ⟨k, rfl⟩ := h.fuel_eq_succ hk
    obtain ⟨t, hstep, ⟨rfl, hreads⟩ | ⟨rfl, hlast, rfl⟩ | ⟨hfault, hne⟩⟩ := decStep_of_reads_cons hwf h
    · have hpos := pixels_pos_of_wf (hwf i List.mem_cons_self)
      have hrest := ih (fun j hj => hwf j (List.mem_cons_of_mem i hj)) hreads (k := k)
        (by rw [play_opos, play_N]; omega)
      rw [play_opos, play_N, Nat.add_assoc] at hrest
      rwa [decodeWhileActive_succ k h.active hstep]
    · rw [decodeWhileActive_of_last k h.active hstep (finished_ne_active _)]
      exact ⟨fun _ => rfl, fun hne => absurd hlast hne⟩
    · rw [decodeWhileActive_of_last k h.active hstep hfault.ne_active]
      exact ⟨fun hall => absurd hall hne, fun _ => hfault⟩

theorem decodeBody_of_finished {In : List Byte} {N : Nat} {s : State}
    (h : decodeWhileActive (N + 1) (decReset N In State.reset) = finished s) : decodeBody In N = .ok s.dec.PxOut := by
  rw [decodeBody, decodeFrom, h]
  rfl

theorem decodeBody_of_mismatched {In : List Byte} {N : Nat}
    (h : Mismatched (decodeWhileActive (N + 1) (decReset N In State.reset))) :
    decodeBody In N = .error .decodeLengthMismatch := by
  rw [decodeBody, decodeFrom]
  simp only [h.1, h.2]

/-- DecodeBody on whole chunks: the pixels they produce from reset, where there are `N` of them. -/
theorem decodeBody_flatMap_encode {is : List Instr} {N : Nat} (hwf : ∀ i ∈ is, i.wf = true) (hN : 1 ≤ N) :
    decodeBody (is.flatMap encode) N =
      if (is.map Instr.pixels).sum = N then
        .ok (playAll is (decReset N (is.flatMap encode) State.reset)).dec.PxOut
      else .error .decodeLengthMismatch := by
  have hreset : (decReset N (is.flatMap encode) State.reset).dec = DecCtx.reset N (is.flatMap encode) := by
    rw [decReset_reset N _ hN]
  obtain ⟨hdone, hfault⟩ := decodeWhileActive_of_reads (k := N + 1) hwf (reads_decReset hN)
    (by rw [hreset]; exact (Nat.le_succ N).trans (Nat.le_add_left _ _))
  rw [hreset, show (DecCtx.reset N (is.flatMap encode)).opos = 0 from rfl, Nat.zero_add] at hdone hfault
  split
  case isTrue hall => exact decodeBody_of_finished (hdone hall)
  case isFalse hne => exact decodeBody_of_mismatched (hfault hne)

/-- DEC in step with ENC produces the pixels that ENC consumes, the pending run first. -/
theorem playAll_chunksOf_PxOut {s : State} {e : EncCtx} (Px : List Pixel) (h : InStep s e) :
    (playAll (chunksOf Px e) s).dec.PxOut = s.dec.PxOut ++ List.replicate e.run e.prev ++ Px := by
  obtain ⟨hinStep, hpixels⟩ := inStep_encodePixels Px h
  rw [chunksOf, playAll_append, (inStep_playAll_flushed hinStep).2, hpixels]

/-- R203 and R204 in one: a body decodes to its own pixels, and with their number only. -/
theorem decodeBody_encodeBody (Px : List Pixel) {M : Nat} (hM : 1 ≤ M) :
    decodeBody (encodeBody Px) M = if Px.length = M then .ok Px else .error .decodeLengthMismatch := by
  have hinStep : InStep (decReset M (encodeBody Px) State.reset) EncCtx.reset :=
    inStep_reset M (encodeBody Px) _ (by rw [decReset_reset M _ hM])
  have hPxOut := playAll_chunksOf_PxOut Px hinStep
  rw [decReset_reset M _ hM, encodeBody_eq] at hPxOut
  rw [encodeBody_eq, decodeBody_flatMap_encode (chunksOf_wf Px _ (Nat.zero_le 61)) hM, chunksOf_pixels,
    decReset_reset M _ hM, hPxOut]
  simp [EncCtx.reset, DecCtx.reset]

/-- Settles O45: the chunks of a body keep DEC in step with ENC and represent all its pixels. -/
theorem roundTrip : Obligations.RoundTrip := by
  unfold Obligations.RoundTrip
  intro Px hPx
  rw [decodeBody_encodeBody Px hPx, if_pos rfl]

/-- Settles O46: any other number of pixels than the chunks represent ends in the fault. -/
theorem lengthIsChecked : Obligations.LengthIsChecked := by
  unfold Obligations.LengthIsChecked
  intro Px M _ hM
  have hfault (hne : M ≠ Px.length) : decodeBody (encodeBody Px) M = .error .decodeLengthMismatch := by
    rw [decodeBody_encodeBody Px hM, if_neg hne.symm]
  refine ⟨⟨fun ⟨ps, hok⟩ => ?_, fun hlength => ⟨Px, ?_⟩⟩, hfault⟩
  · by_contra hne
    rw [hfault hne] at hok
    cases hok
  · rw [decodeBody_encodeBody Px hM, if_pos hlength.symm]

/-- Settles O47: the common body decodes with the length of each sequence, so that the length check makes the lengths
equal and the round trip the pixels; the three bodies are evaluated. -/
theorem encodeInjectiveDecodeNot : Obligations.EncodeInjectiveDecodeNot := by
  unfold Obligations.EncodeInjectiveDecodeNot
  refine ⟨fun Px Qx hPx hQx hbody => ?_, rfl, rfl, rfl, rfl⟩
  have hP := roundTrip Px hPx
  have hlength : Px.length = Qx.length :=
    (lengthIsChecked Qx Px.length hQx hPx).1.1 ⟨Px, by rw [← hbody, hP]⟩
  rw [hbody, hlength, roundTrip Qx hQx] at hP
  exact (Except.ok.inj hP).symm

end Sys2Proof.Machine
end

section
/-!
Two pixels of one slot: after the second has taken the slot, the first is a miss (44_laws.md R207).
-/
namespace Sys2Proof.Machine

/-- ENC holds the pixel neither in `prev` nor in the pixel's slot: neither RUN nor INDEX can stand for it. -/
structure Evicted (P : Pixel) (e : EncCtx) : Prop where
  prev : P ≠ e.prev
  slot : cacheRead (hash P) e.C ≠ P

/-- A pixel that misses the cache evicts the others of its slot. -/
theorem evicted_encodePixel_of_miss {P Q : Pixel} {e : EncCtx} (hne : P ≠ Q) (hslot : hash P = hash Q)
    (hcached : PrevCached e.prev e.C) (hmiss : cacheLookup Q e.C = false) : Evicted P (encodePixel Q e) where
  prev := by rwa [encodePixel_prev]
  slot := by
    have hQ : Q ≠ e.prev := by
      rintro rfl
      rw [(cacheLookup_iff _ _).2 hcached] at hmiss
      cases hmiss
    rw [encodePixel_C, if_neg hQ, hslot, cacheRead_cacheWrite_self]
    exact hne.symm

/-- Another pixel does not bring an evicted pixel back. -/
theorem evicted_encodePixel {P R : Pixel} {e : EncCtx} (hne : P ≠ R) (h : Evicted P e) : Evicted P (encodePixel R e) where
  prev := by rwa [encodePixel_prev]
  slot := by
    rw [encodePixel_C]
    split
    · exact h.slot
    · rw [cacheRead_cacheWrite]
      split
      · exact hne.symm
      · exact h.slot

theorem evicted_encodePixels {P : Pixel} {e : EncCtx} (Px : List Pixel) (hmem : P ∉ Px) (h : Evicted P e) :
    Evicted P (encodePixels Px e) := by
  induction Px generalizing e with
  | nil => exact h
  | cons R Px ih =>
    exact ih (List.not_mem_of_not_mem_cons hmem) (evicted_encodePixel (List.ne_of_not_mem_cons hmem) h)

theorem selectMiss_kind_ne_index (P prev : Pixel) : (selectMiss P prev).kind ≠ .index := by
  rcases selectMiss_cases P prev with ⟨-, h⟩ | ⟨-, -, h⟩ | ⟨-, -, -, h⟩ | ⟨-, -, -, h⟩ <;> rw [h] <;> nofun

/-- Settles O49: the pixel stays evicted until it comes again; it is then a miss, and the miss writes it back. -/
theorem indexCollision : Obligations.IndexCollision := by
  unfold Obligations.IndexCollision
  refine ⟨fun e P Q between hcached hne hslot hmiss hmem => ?_, by decide⟩
  have h := evicted_encodePixels between hmem (evicted_encodePixel_of_miss hne hslot hcached hmiss)
  generalize encodePixels between (encodePixel Q e) = e' at h
  refine ⟨?_, ?_, ?_⟩
  · rw [selectChunk_of_miss h.slot]
    exact selectMiss_kind_ne_index P e'.prev
  · rw [encodePixel, if_neg h.prev, emitChunk_Out, selectChunk_flushRun]
  · rw [encodePixel_C, if_neg h.prev, cacheRead_cacheWrite_self]

end Sys2Proof.Machine
end

section
/-!
How a `DecStep` ends: the four causes of DecodeLengthMismatch and the one of DONE, read off the bytes at the cursor and
the pixels missing (60_exceptions.md R222, 43_chunk_decoder.md R180).
-/
namespace Sys2Proof.Machine

/-! ### The causes -/

/-- R222's causes in its order: the bytes are exhausted, the chunk is truncated, a RUN overruns, bytes trail. -/
def MismatchCause (d : DecCtx) : Prop :=
  d.blen ≤ d.cur ∨
    (∃ b0, d.In[d.cur]? = some b0 ∧ d.blen < d.cur + chunkLength b0) ∨
    (∃ count rest, decode (d.In.drop d.cur) = .ok (.run count, rest) ∧ d.N < d.opos + count) ∨
    ∃ i rest, decode (d.In.drop d.cur) = .ok (i, rest) ∧ d.opos + i.pixels = d.N ∧ d.cur + i.length < d.blen

/-- The chunk at the cursor produces the last pixel from the last byte (R180). -/
def CompletesBody (d : DecCtx) : Prop :=
  ∃ i rest, decode (d.In.drop d.cur) = .ok (i, rest) ∧ d.opos + i.pixels = d.N ∧ d.cur + i.length = d.blen

/-- The bytes from the cursor on hold no chunk exactly where the fetch finds them exhausted or cut short (R171). -/
theorem decode_error_iff {d : DecCtx} :
    (∃ r, decode (d.In.drop d.cur) = .error r) ↔
      d.blen ≤ d.cur ∨ ∃ b0, d.In[d.cur]? = some b0 ∧ d.blen < d.cur + chunkLength b0 := by
  constructor
  · rintro ⟨r, herror⟩
    by_contra! ⟨hcur, hwhole⟩
    have hb0 := List.getElem?_eq_getElem hcur
    obtain ⟨i, hdecode, -, -⟩ := decode_at_whole hb0 (hwhole _ hb0)
    rw [herror] at hdecode
    cases hdecode
  · rintro (hend | ⟨b0, hb0, hshort⟩)
    · exact ⟨_, decode_at_end hend⟩
    · exact ⟨_, decode_at_truncated hb0 hshort⟩

/-- Where a pixel is missing, only a RUN can represent more pixels than are missing. -/
theorem overruns_iff {i : Instr} {d : DecCtx} (hroom : d.opos < d.N) : overruns i d ↔ d.N < d.opos + i.pixels := by
  refine ⟨fun hover => Nat.lt_of_not_le fun hle => not_overruns_of_le hle hover, fun hlt => ?_⟩
  cases i with
  | run count => exact ⟨count, rfl, hlt⟩
  | rgb | rgba | index | diff | luma => exact absurd hroom (Nat.not_lt.2 (Nat.le_of_lt_succ hlt))

theorem mismatchCause_of_error {d : DecCtx} {r : DecodeReject} (h : decode (d.In.drop d.cur) = .error r) :
    MismatchCause d := by
  obtain hend | hshort := decode_error_iff.1 ⟨r, h⟩
  · exact .inl hend
  · exact .inr (.inl hshort)

theorem not_completesBody_of_error {d : DecCtx} {r : DecodeReject} (h : decode (d.In.drop d.cur) = .error r) :
    ¬ CompletesBody d := by
  rintro ⟨i, rest, hdecode, -⟩
  rw [h] at hdecode
  cases hdecode

/-- With a chunk at the cursor, a cause is an overrun or trailing bytes. -/
theorem mismatchCause_iff_of_decode {d : DecCtx} {i : Instr} {rest : List Byte}
    (h : decode (d.In.drop d.cur) = .ok (i, rest)) (hroom : d.opos < d.N) :
    MismatchCause d ↔ d.N < d.opos + i.pixels ∨ d.opos + i.pixels = d.N ∧ d.cur + i.length < d.blen := by
  have hchunk : ¬ ∃ r, decode (d.In.drop d.cur) = .error r := by simp [h]
  rw [decode_error_iff, not_or] at hchunk
  obtain ⟨hbytes, hwhole⟩ := hchunk
  rw [MismatchCause, or_iff_right hbytes, or_iff_right hwhole, ← overruns_iff hroom, overruns]
  simp [h]

theorem completesBody_iff_of_decode {d : DecCtx} {i : Instr} {rest : List Byte}
    (h : decode (d.In.drop d.cur) = .ok (i, rest)) :
    CompletesBody d ↔ d.opos + i.pixels = d.N ∧ d.cur + i.length = d.blen := by
  simp [CompletesBody, h]

/-! ### The outcome -/

/-- The end of a step with a cause, `cause`, of the fault and a condition, `complete`, of DONE. -/
def EndsBy (cause complete : Prop) (t : State) : Prop :=
  (t.dec.phase = .fault ↔ cause) ∧ (t.dec.phase = .fault → t.dec.err = .decodeLengthMismatch) ∧
    (t.dec.phase = .done ↔ complete)

theorem Mismatched.endsBy {t : State} {cause complete : Prop} (h : Mismatched t) (hcause : cause)
    (hcomplete : ¬ complete) : EndsBy cause complete t := by
  obtain ⟨hphase, herr⟩ := h
  exact ⟨iff_of_true hphase hcause, fun _ => herr, iff_of_false (by rw [hphase]; nofun) hcomplete⟩

theorem endsBy_of_done {t : State} {cause complete : Prop} (h : t.dec.phase = .done) (hcause : ¬ cause)
    (hcomplete : complete) : EndsBy cause complete t := by
  have hne : t.dec.phase ≠ .fault := by rw [h]; nofun
  exact ⟨iff_of_false hne hcause, fun hfault => absurd hfault hne, iff_of_true h hcomplete⟩

theorem endsBy_of_active {t : State} {cause complete : Prop} (h : t.dec.phase = .active) (hcause : ¬ cause)
    (hcomplete : ¬ complete) : EndsBy cause complete t := by
  have hne : t.dec.phase ≠ .fault := by rw [h]; nofun
  exact ⟨iff_of_false hne hcause, fun hfault => absurd hfault hne, iff_of_false (by rw [h]; nofun) hcomplete⟩

/-- A `DecStep` of a decode in progress ends by the causes above. -/
theorem decStep_endsBy {s : State} (hup : s.decUp = true) (hact : s.dec.phase = .active)
    (herr : s.dec.err = .noFault) (hroom : s.dec.opos < s.dec.N) :
    ∃ t, decStep s = .next t ∧ EndsBy (MismatchCause s.dec) (CompletesBody s.dec) t := by
  obtain ⟨t, hstep, houtcome⟩ := decStep_outcomes hup hact herr hroom
  refine ⟨t, hstep, ?_⟩
  obtain ⟨r, herror, hfault⟩ | ⟨i, hdecode, -, houtcome⟩ := houtcome
  · exact Mismatched.endsBy hfault (mismatchCause_of_error herror) (not_completesBody_of_error herror)
  rw [mismatchCause_iff_of_decode hdecode hroom, completesBody_iff_of_decode hdecode]
  obtain ⟨hover, hfault⟩ | ⟨hlast, htrailing, hfault⟩ | ⟨hlast, hend, rfl⟩ | ⟨hmissing, rfl⟩ := houtcome
  · exact Mismatched.endsBy hfault (.inl hover) (by omega)
  · exact Mismatched.endsBy hfault (.inr ⟨hlast.symm, htrailing⟩) (by omega)
  · exact endsBy_of_done rfl (by omega) ⟨hlast.symm, hend⟩
  · exact endsBy_of_active ((play_phase i s).trans hact) (by omega) (by omega)

/-- Settles O28: in ACTIVE the invariant has `err` clear and a pixel missing, and the causes split by the bytes at the
cursor. -/
theorem decStepOutcomeExact : Obligations.DecStepOutcomeExact := by
  unfold Obligations.DecStepOutcomeExact
  intro s ⟨_, hinv⟩ hready
  have ⟨_, hup, hact⟩ := hready
  obtain ⟨⟨herr, _⟩, hroom⟩ := (hinv hup).1 hact
  rw [step_of_decReady hready]
  exact decStep_endsBy (s := takeCommand s) hup hact herr hroom

end Sys2Proof.Machine
end

section
/-! Proofs: `EncReset` from every state, and the commands that have no step (R250, R261). -/

namespace Sys2Proof.Machine

/-! ### `EncReset` (R250) -/

theorem step_of_encReset {s : State} (h : nextCommand s = .encReset) : step s = .next (encReset (takeCommand s)) :=
  step_of_command h

/-- Settles O50: the reset does not read the context it replaces, and its `prev` and cache are START and the zero pixel by
definition. -/
theorem encResetEffect : Obligations.EncResetEffect := by
  unfold Obligations.EncResetEffect
  intro s hnext
  rw [step_of_encReset hnext, encReset, EncCtx.reset, resetCache, Config.prevInit, Config.start, Config.zero]

/-! ### Commands outside the state in which they are defined (R261) -/

theorem whenEncActive_of_down (f : EncCtx → EncCtx) {s : State} (hdown : s.encUp = false) :
    whenEncActive f s = .fault .encBeforeReset := if_pos hdown

theorem whenEncActive_of_not_active (f : EncCtx → EncCtx) {s : State} (hup : s.encUp = true)
    (hphase : s.enc.phase ≠ .active) : whenEncActive f s = .fault .encNotActive := by
  rw [whenEncActive, if_neg (by simp [hup]), if_neg hphase]

theorem decStep_of_down {s : State} (hdown : s.decUp = false) : decStep s = .fault .decBeforeReset := if_pos hdown

theorem decStep_of_not_active {s : State} (hup : s.decUp = true) (hphase : s.dec.phase ≠ .active) :
    decStep s = .fault .decNotActive := by
  rw [decStep, if_neg (by simp [hup]), if_neg hphase]

/-- `EncPixel` and `EncFinish` are guarded alike (R135). -/
theorem step_eq_whenEncActive {s : State} (h : (∃ P, nextCommand s = .encPixel P) ∨ nextCommand s = .encFinish) :
    ∃ f, step s = whenEncActive f (takeCommand s) := by
  obtain ⟨P, hpixel⟩ | hfinish := h
  · exact ⟨encodePixel P, step_of_command hpixel⟩
  · exact ⟨finishEnc, step_of_command hfinish⟩

/-- Settles O53: ENC's two commands go through one guard and `DecStep` through its own, and taking the command from the
host changes nothing that the guards read. -/
theorem misuseIsStuck : Obligations.MisuseIsStuck := by
  unfold Obligations.MisuseIsStuck
  intro s
  refine ⟨fun henc => ?_, fun hdec => ?_⟩
  · obtain ⟨f, hstep⟩ := step_eq_whenEncActive henc
    rw [hstep]
    exact ⟨whenEncActive_of_down f (s := takeCommand s), whenEncActive_of_not_active f (s := takeCommand s)⟩
  · have hstep : step s = decStep (takeCommand s) := step_of_command hdec
    rw [hstep]
    exact ⟨decStep_of_down (s := takeCommand s), decStep_of_not_active (s := takeCommand s)⟩

end Sys2Proof.Machine
end

section
/-!
The decoder undoes the encoder, no byte is illegal, and the spec's words (30_encoding.md R82 to R93).
-/
namespace Sys2Proof

/-- Settles O1: kind by kind, the fields of the first bytes are the operands plus their biases. -/
theorem decodeInvertsEncode : Obligations.DecodeInvertsEncode :=
  fun _ rest hwf => decode_encode_append hwf rest

/-- No chunk is longer than five bytes (R80). -/
theorem chunkLength_le_five (b0 : Byte) : chunkLength b0 ≤ 5 := by
  rw [chunkLength_eq_kind]
  cases kindOf b0 <;> decide

/-- Five bytes hold a whole chunk, whatever they are (R92). -/
theorem decode_ok_of_five_le {bs : List Byte} (h : 5 ≤ bs.length) : ∃ i rest, decode bs = .ok (i, rest) := by
  obtain ⟨b0, t, rfl⟩ := List.exists_cons_of_length_pos (Nat.lt_of_lt_of_le (by decide) h)
  obtain ⟨i, hdecode, -⟩ := decode_of_le b0 t ((chunkLength_le_five b0).trans h)
  exact ⟨i, _, hdecode⟩

theorem decode_eq_exhausted_iff {bs : List Byte} : decode bs = .error .exhausted ↔ bs = [] := by
  constructor
  · intro hend
    obtain hnil | hshort := nil_or_truncated_of_error hend
    · exact hnil
    · rw [hend] at hshort
      cases hshort
  · rintro rfl
    rfl

/-- Settles O7: the first byte asks for at most five bytes, decoding finds no byte only where there is none, and the
fields less their biases are in range. -/
theorem decodeTotalAndInRange : Obligations.DecodeTotalAndInRange :=
  fun _ => ⟨decode_ok_of_five_le, decode_eq_exhausted_iff, fun _ _ => wf_of_decode⟩

/-- Settles O8: the decoder evaluated on each word. -/
theorem specWordsDecode : Obligations.SpecWordsDecode := by
  unfold Obligations.SpecWordsDecode
  exact ⟨rfl, rfl, rfl, rfl, rfl, rfl, rfl, rfl, rfl, rfl, rfl, rfl, rfl, rfl, rfl, rfl, rfl, rfl⟩

end Sys2Proof
end

section
/-!
The course of a decode: on any body and from any state in progress, its length and its end (43_chunk_decoder.md R170,
R183, R184).
-/
namespace Sys2Proof.Machine

/-! ### A decode in progress -/

/-- DEC answers a `DecStep`: it is in ACTIVE with `err` clear, pixels missing and the cursor within the body. -/
structure InProgress (s : State) : Prop where
  up : s.decUp = true
  active : s.dec.phase = .active
  err : s.dec.err = .noFault
  room : s.dec.opos < s.dec.N
  cur : s.dec.cur ≤ s.dec.blen

theorem inProgress_of_inv {s : State} (hinv : s.Inv) (hup : s.decUp = true) (hact : s.dec.phase = .active) :
    InProgress s := by
  obtain ⟨⟨herr, -, -, hcur, -⟩, hroom⟩ := (hinv.2 hup).1 hact
  exact ⟨hup, hact, herr, hroom, hcur⟩

/-- The state after a `DecReset(N, In)` that was not refused (R251). -/
def latched (N : Nat) (In : List Byte) (s : State) : State := { s with decUp := true, dec := DecCtx.reset N In }

/-- With unbounded counters, only `N = 0` is refused. -/
theorem decReset_eq_latched {s : State} {N : Nat} (In : List Byte) (hN : 1 ≤ N) (hw : s.cntW = none) :
    decReset N In s = latched N In s := by
  obtain ⟨x, hrefused, -⟩ | ⟨-, -, -, h⟩ := decReset_cases N In s
  · rw [hw] at hrefused
    obtain rfl | hfits | hfits := hrefused
    · exact absurd hN (by decide)
    · cases hfits
    · cases hfits
  · exact h

theorem inProgress_latched {N : Nat} (In : List Byte) (s : State) (hN : 1 ≤ N) : InProgress (latched N In s) :=
  ⟨rfl, rfl, rfl, hN, Nat.zero_le _⟩

theorem inProgress_play {i : Instr} {s : State} (h : InProgress s) (hroom : s.dec.opos + i.pixels < s.dec.N)
    (hcur : s.dec.cur + i.length ≤ s.dec.blen) : InProgress (play i s) where
  up := by rw [play_decUp, h.up]
  active := by rw [play_phase, h.active]
  err := by rw [play_err, h.err]
  room := by rwa [play_opos, play_N]
  cur := by rwa [play_cur, play_blen]

/-- A `DecStep` ends in the fault; or it plays the chunk at the cursor, and that was the last one of the body or leaves
the decode in progress. -/
theorem InProgress.outcome {s : State} (h : InProgress s) :
    ∃ t, decStep s = .next t ∧
      (Mismatched t ∨
        ∃ i, decode (s.dec.In.drop s.dec.cur) = .ok (i, s.dec.In.drop (s.dec.cur + i.length)) ∧
          (t = finished (play i s) ∧ s.dec.cur + i.length = s.dec.blen ∨ t = play i s ∧ InProgress t)) := by
  obtain ⟨t, hstep, houtcome⟩ := decStep_outcomes h.up h.active h.err h.room
  refine ⟨t, hstep, ?_⟩
  obtain ⟨r, -, hfault⟩ | ⟨i, hdecode, hcur, houtcome⟩ := houtcome
  · exact .inl hfault
  obtain ⟨-, hfault⟩ | ⟨-, -, hfault⟩ | ⟨-, hend, rfl⟩ | ⟨hroom, rfl⟩ := houtcome
  · exact .inl hfault
  · exact .inl hfault
  · exact .inr ⟨i, hdecode, .inl ⟨rfl, hend⟩⟩
  · exact .inr ⟨i, hdecode, .inr ⟨rfl, inProgress_play h hroom hcur⟩⟩

/-! ### How many steps a decode takes (R183) -/

/-- How many more steps can leave DEC in ACTIVE: each uses up a missing pixel and a byte left. -/
def stepsLeft (d : DecCtx) : Nat := min (d.N - d.opos) (d.blen - d.cur)

theorem stepsLeft_play {s : State} {i : Instr} {rest : List Byte}
    (hdecode : decode (s.dec.In.drop s.dec.cur) = .ok (i, rest)) (h : InProgress (play i s)) : stepsLeft (play i s).dec < stepsLeft s.dec := by
  have hpixels := pixels_pos_of_decode hdecode
  have hlength := instr_length_pos i
  have hroom := h.room
  have hcur := h.cur
  rw [play_opos, play_N] at hroom
  rw [play_cur, play_blen] at hcur
  simp only [stepsLeft, play_opos, play_N, play_cur, play_blen]
  omega

/-- A `DecStep` that leaves DEC in ACTIVE takes one of the steps left. -/
theorem InProgress.stepsLeft_lt {s t : State} (h : InProgress s) (hstep : decStep s = .next t)
    (hact : t.dec.phase = .active) : InProgress t ∧ stepsLeft t.dec < stepsLeft s.dec := by
  obtain ⟨u, hu, hcases⟩ := h.outcome
  rw [hstep] at hu
  cases hu
  obtain hfault | ⟨i, hdecode, ⟨rfl, -⟩ | ⟨rfl, hprogress⟩⟩ := hcases
  · exact absurd hact hfault.ne_active
  · exact absurd hact (finished_ne_active (play i s))
  · exact ⟨hprogress, stepsLeft_play hdecode hprogress⟩

theorem decodeWhileActive_ends {k : Nat} {s : State} (h : InProgress s) (hk : stepsLeft s.dec < k) :
    (decodeWhileActive k s).dec.phase ≠ .active := by
  induction k generalizing s with
  | zero => exact absurd hk (Nat.not_lt_zero _)
  | succ k ih =>
    obtain ⟨t, hstep, -⟩ := h.outcome
    rw [decodeWhileActive_succ k h.active hstep]
    by_cases hact : t.dec.phase = .active
    · obtain ⟨hprogress, hlt⟩ := h.stepsLeft_lt hstep hact
      exact ih hprogress (by omega)
    · rw [decodeWhileActive_stop k hact]
      exact hact

/-! ### `DecStep` while ACTIVE, as steps of the block -/

/-- With no other command pending the steps of the block are those of the decode, as long as it is ACTIVE. -/
theorem runSteps_decodeWhileActive (k : Nat) {s : State} (hup : s.decUp = true) (hhost : s.host = []) :
    ∃ j ≤ k, runSteps j s = .next (decodeWhileActive k s) := by
  induction k generalizing s with
  | zero => exact ⟨0, Nat.le_refl 0, rfl⟩
  | succ k ih =>
    by_cases hact : s.dec.phase = .active
    · obtain ⟨t, hstep⟩ := decStep_next hup hact
      obtain ⟨-, -, hup', -, hhost', -, -⟩ := decStep_frame hstep
      obtain ⟨j, hj, hrun⟩ := ih (hup'.trans hup) (hhost'.trans hhost)
      refine ⟨j + 1, Nat.succ_le_succ hj, ?_⟩
      rw [runSteps_succ j ((step_of_no_command hhost).trans hstep), hrun, decodeWhileActive_succ k hact hstep]
    · exact ⟨0, Nat.zero_le _, by rw [decodeWhileActive_stop _ hact, runSteps_zero]⟩

theorem runSteps_of_fault {s : State} {r : Fault} (k : Nat) (h : step s = .fault r) :
    runSteps (k + 1) s = .fault r := by
  have hstep : Sys2Proof.core.step s = .fault r := h
  have hrun := Host.Core.run.eq_def Sys2Proof.core (k + 1) s
  simp only [hstep] at hrun
  exact hrun

/-- Once the decode has ended, no step is left. -/
theorem runSteps_of_ended {k : Nat} {s t : State} (hup : s.decUp = true) (hend : s.dec.phase ≠ .active)
    (hhost : s.host = []) (hrun : runSteps k s = .next t) : t = s := by
  cases k with
  | zero =>
    cases hrun
    rfl
  | succ k =>
    rw [runSteps_of_fault k ((step_of_no_command hhost).trans (decStep_of_not_active hup hend))] at hrun
    cases hrun

/-- Where the decode is still ACTIVE after `k` steps, none of them ended it. -/
theorem le_stepsLeft_of_runSteps {k : Nat} {s t : State} (h : InProgress s) (hhost : s.host = [])
    (hrun : runSteps k s = .next t) (hact : t.dec.phase = .active) : k ≤ stepsLeft s.dec := by
  induction k generalizing s with
  | zero => exact Nat.zero_le _
  | succ k ih =>
    obtain ⟨u, hstep, -⟩ := h.outcome
    obtain ⟨-, -, hup, -, hhost', -, -⟩ := decStep_frame hstep
    rw [hhost] at hhost'
    rw [runSteps_succ k ((step_of_no_command hhost).trans hstep)] at hrun
    have huact : u.dec.phase = .active := by
      by_contra hend
      rw [runSteps_of_ended (hup.trans h.up) hend hhost' hrun] at hact
      exact hend hact
    obtain ⟨hprogress, hlt⟩ := h.stepsLeft_lt hstep huact
    exact Nat.succ_le_of_lt (Nat.lt_of_le_of_lt (ih hprogress hhost' hrun) hlt)

/-- Settles O29: a step that leaves DEC in ACTIVE uses up a missing pixel and a byte left, so that there are at most
`stepsLeft` of them, and the step after them ends the decode. -/
theorem decodeTerminates : Obligations.DecodeTerminates := by
  unfold Obligations.DecodeTerminates
  intro s hinv hup hact hhost
  have hprogress := inProgress_of_inv hinv hup hact
  refine ⟨fun k t hrun htact => le_min_iff.1 (le_stepsLeft_of_runSteps hprogress hhost hrun htact), ?_⟩
  obtain ⟨j, hj, hrun⟩ := runSteps_decodeWhileActive (stepsLeft s.dec + 1) hup hhost
  exact ⟨j, _, hj, hrun, decodeWhileActive_ends hprogress (Nat.lt_succ_self _)⟩

/-! ### What a decode answers, by the chunks of the body (R184, 92_eei_decisions.md D5) -/

/-- A body whose last chunk is cut short ends the decode in the fault: no `DecStep` reaches the last byte. -/
theorem mismatched_of_cut {k : Nat} {s : State} (h : InProgress s)
    (hcut : (disassemble (s.dec.In.drop s.dec.cur)).2 ≠ []) (hk : s.dec.N ≤ s.dec.opos + k) :
    Mismatched (decodeWhileActive k s) := by
  induction k generalizing s with
  | zero => exact absurd h.room (Nat.not_lt.2 hk)
  | succ k ih =>
    obtain ⟨t, hstep, hfault | ⟨i, hdecode, houtcome⟩⟩ := h.outcome
    · rwa [decodeWhileActive_of_last k h.active hstep hfault.ne_active]
    rw [disassemble_of_decode hdecode] at hcut
    obtain ⟨-, hend⟩ | ⟨rfl, hprogress⟩ := houtcome
    · rw [List.drop_eq_nil_of_le hend.ge] at hcut
      exact absurd rfl hcut
    · have hpixels := pixels_pos_of_decode hdecode
      rw [decodeWhileActive_succ k h.active hstep]
      exact ih hprogress (by rwa [play_In, play_cur]) (by rw [play_opos, play_N]; omega)

/-- The bytes from the cursor on are whole chunks that represent exactly the pixels missing. -/
def Completes (d : DecCtx) : Prop :=
  (disassemble (d.In.drop d.cur)).2 = [] ∧
    d.opos + ((disassemble (d.In.drop d.cur)).1.map Instr.pixels).sum = d.N

/-- A decode plays all the chunks and ends in DONE, or it ends in the fault. -/
theorem decodeWhileActive_outcome {k : Nat} {s : State} (h : InProgress s) (hk : s.dec.N ≤ s.dec.opos + k) :
    (Completes s.dec → decodeWhileActive k s = finished (playAll (disassemble (s.dec.In.drop s.dec.cur)).1 s)) ∧
      (¬ Completes s.dec → Mismatched (decodeWhileActive k s)) := by
  by_cases hcut : (disassemble (s.dec.In.drop s.dec.cur)).2 = []
  · have hbytes := encode_disassemble (s.dec.In.drop s.dec.cur)
    rw [hcut, List.append_nil] at hbytes
    have hreads : Reads (disassemble (s.dec.In.drop s.dec.cur)).1 s := ⟨h.up, h.active, h.err, h.room, hbytes.symm⟩
    obtain ⟨hdone, hfault⟩ := decodeWhileActive_of_reads (wf_of_mem_disassemble _) hreads hk
    exact ⟨fun hall => hdone hall.2, fun hnot => hfault fun hsum => hnot ⟨hcut, hsum⟩⟩
  · exact ⟨fun hall => absurd hall.1 hcut, fun _ => mismatched_of_cut h hcut hk⟩

theorem completes_reset_iff {N : Nat} {In : List Byte} :
    Completes (DecCtx.reset N In) ↔ (disassemble In).2 = [] ∧ ((disassemble In).1.map Instr.pixels).sum = N := by
  simp only [Completes, DecCtx.reset, List.drop_zero, Nat.zero_add]

/-- The same from a reset, with as many steps as DecodeBody takes. -/
theorem decodeWhileActive_latched {N : Nat} (In : List Byte) (s : State) (hN : 1 ≤ N) :
    (Completes (DecCtx.reset N In) →
        decodeWhileActive (N + 1) (latched N In s) = finished (playAll (disassemble In).1 (latched N In s))) ∧
      (¬ Completes (DecCtx.reset N In) → Mismatched (decodeWhileActive (N + 1) (latched N In s))) :=
  decodeWhileActive_outcome (inProgress_latched In s hN) ((Nat.le_succ N).trans (Nat.le_add_left _ _))

theorem decodeBody_of_completes {N : Nat} {In : List Byte} (hN : 1 ≤ N) (h : Completes (DecCtx.reset N In)) :
    decodeBody In N = .ok (playAll (disassemble In).1 (latched N In State.reset)).dec.PxOut := by
  apply decodeBody_of_finished
  rw [decReset_eq_latched In hN rfl, (decodeWhileActive_latched In State.reset hN).1 h]

theorem decodeBody_of_not_completes {N : Nat} {In : List Byte} (hN : 1 ≤ N) (h : ¬ Completes (DecCtx.reset N In)) :
    decodeBody In N = .error .decodeLengthMismatch := by
  apply decodeBody_of_mismatched
  rw [decReset_eq_latched In hN rfl]
  exact (decodeWhileActive_latched In State.reset hN).2 h

/-- Settles O30: a body that is whole chunks for `N` pixels is played to its end; where its chunks represent another
number, or its last one is cut short, the decode ends in the fault. -/
theorem decodeSucceedsExactly : Obligations.DecodeSucceedsExactly := by
  unfold Obligations.DecodeSucceedsExactly
  intro In N hN
  rw [← completes_reset_iff]
  by_cases h : Completes (DecCtx.reset N In)
  · have hok : ∃ ps, decodeBody In N = .ok ps := ⟨_, decodeBody_of_completes hN h⟩
    exact ⟨iff_of_true hok h, fun hnot => absurd hok hnot⟩
  · have hfault := decodeBody_of_not_completes hN h
    exact ⟨iff_of_false (fun ⟨ps, hok⟩ => by rw [hfault] at hok; cases hok) h, fun _ => hfault⟩

/-! ### The same decode from another state -/

/-- What a chunk does to DEC is a function of DEC's context alone (R21). -/
theorem playAll_dec_congr (is : List Instr) {s t : State} (h : s.dec = t.dec) :
    (playAll is s).dec = (playAll is t).dec := by
  induction is generalizing s t with
  | nil => exact h
  | cons i is ih =>
    have hplay : (play i s).dec = (play i t).dec := by rw [play_eq, play_eq, h]
    exact ih hplay

theorem length_playAll_PxOut (is : List Instr) (s : State) :
    (playAll is s).dec.PxOut.length = s.dec.PxOut.length + (is.map Instr.pixels).sum := by
  induction is generalizing s with
  | nil => rfl
  | cons i is ih =>
    rw [playAll_cons, ih, play_PxOut, List.length_append, pixelsOf_length, List.map_cons, List.sum_cons, Nat.add_assoc]

/-- Played to its end, a body has used all its bytes and made `N` pixels. -/
theorem playAll_latched {N : Nat} {In : List Byte} (s : State) (h : Completes (DecCtx.reset N In)) :
    (playAll (disassemble In).1 (latched N In s)).dec.cur = In.length ∧
      (playAll (disassemble In).1 (latched N In s)).dec.PxOut.length = N := by
  obtain ⟨htail, hpixels⟩ := completes_reset_iff.1 h
  have hbytes := congrArg List.length (encode_disassemble In)
  rw [htail, List.append_nil, length_flatMap_encode] at hbytes
  rw [playAll_cur, length_playAll_PxOut, hbytes, hpixels]
  exact ⟨Nat.zero_add _, Nat.zero_add _⟩

/-- Settles O42: the steps of the block are those of DecodeBody from another state, and the pixels, the phase and the
fault do not depend on that state; `N = 0` is refused in the first step. -/
theorem decodeBodyIsWhatDecDoes : Obligations.DecodeBodyIsWhatDecDoes := by
  unfold Obligations.DecodeBodyIsWhatDecDoes
  intro s In N hhost hw
  obtain ⟨hnext, hrest⟩ := nextCommand_cons hhost
  have hfirst : step s = .next (decReset N In (takeCommand s)) := step_of_command hnext
  obtain rfl | hN := Nat.eq_zero_or_pos N
  · exact ⟨0, decReset 0 In (takeCommand s), runSteps_succ 0 hfirst, nofun, nofun, fun _ => rfl⟩
  rw [decReset_eq_latched (s := takeCommand s) In hN hw] at hfirst
  obtain ⟨k, -, hrun⟩ := runSteps_decodeWhileActive (N + 1) (s := latched N In (takeCommand s)) rfl hrest
  refine ⟨k, _, (runSteps_succ k hfirst).trans hrun, ?_⟩
  obtain ⟨hdone, hfault⟩ := decodeWhileActive_latched In (takeCommand s) hN
  by_cases h : Completes (DecCtx.reset N In)
  · obtain ⟨hcur, hlength⟩ := playAll_latched (takeCommand s) h
    have hpixels := playAll_dec_congr (disassemble In).1 (s := latched N In State.reset)
      (t := latched N In (takeCommand s)) rfl
    rw [hdone h, decodeBody_of_completes hN h, hpixels]
    exact ⟨finished_ne_active _, fun _ => ⟨rfl, hlength, hcur⟩, nofun⟩
  · have hmismatch := hfault h
    refine ⟨hmismatch.ne_active, fun hphase => ?_, fun _ => ?_⟩
    · rw [hmismatch.1] at hphase
      cases hphase
    · rw [hmismatch.2, decodeBody_of_not_completes hN h]

end Sys2Proof.Machine
end

section
/-!
What a command of each unit reads and writes: contexts are private, commands of the two units commute, and only a reset
leaves DONE or FAULT (10_state.md R21, 20_memory.md R64, 60_exceptions.md R225).
-/
namespace Sys2Proof.Machine

/-! ### The commands of ENC -/

/-- The state with ENC's context replaced. -/
def State.withEnc (e : EncCtx) (u : Bool) (s : State) : State := { s with enc := e, encUp := u }

/-- The state with DEC's context replaced. -/
def State.withDec (d : DecCtx) (u : Bool) (n : Nat) (s : State) : State := { s with dec := d, decUp := u, free := n }

/-- What `EncPixel` and `EncFinish` do to ENC's context; no other command is of this form. -/
def Command.encUpdate : Command → Option (EncCtx → EncCtx)
  | .encPixel P => some (encodePixel P)
  | .encFinish => some finishEnc
  | .encReset => none
  | .decReset _ _ => none
  | .decStep => none

/-- Everything a command of ENC can do where it answers: reset the context, or update it in ACTIVE. -/
theorem runCommand_enc_cases {c : Command} {s t : State} (henc : c.isEnc = true) (h : runCommand c s = .next t) :
    (c = .encReset ∧ t = s.withEnc EncCtx.reset true) ∨
      ∃ f, c.encUpdate = some f ∧ s.encUp = true ∧ s.enc.phase = .active ∧ t = s.withEnc (f s.enc) s.encUp := by
  cases c with
  | encReset =>
    cases h
    exact .inl ⟨rfl, rfl⟩
  | encPixel P =>
    obtain ⟨hup, hact, rfl⟩ := whenEncActive_cases h
    exact .inr ⟨_, rfl, hup, hact, rfl⟩
  | encFinish =>
    obtain ⟨hup, hact, rfl⟩ := whenEncActive_cases h
    exact .inr ⟨_, rfl, hup, hact, rfl⟩
  | decReset | decStep => cases henc

theorem runCommand_of_encUpdate {c : Command} {f : EncCtx → EncCtx} (h : c.encUpdate = some f) (s : State) :
    runCommand c s = whenEncActive f s := by
  cases c with
  | encPixel | encFinish =>
    cases h
    rfl
  | encReset | decReset | decStep => cases h

/-- A command of ENC writes ENC's context only. -/
theorem runCommand_enc_frame {c : Command} {s t : State} (henc : c.isEnc = true) (h : runCommand c s = .next t) :
    ∃ e u, t = s.withEnc e u := by
  obtain ⟨-, rfl⟩ | ⟨f, -, -, -, rfl⟩ := runCommand_enc_cases henc h
  · exact ⟨_, _, rfl⟩
  · exact ⟨_, _, rfl⟩

/-- A command of ENC does not read DEC's context (R21). -/
theorem runCommand_withDec {c : Command} {s t : State} (henc : c.isEnc = true) (h : runCommand c s = .next t)
    (d : DecCtx) (u : Bool) (n : Nat) : runCommand c (s.withDec d u n) = .next (t.withDec d u n) := by
  obtain ⟨rfl, rfl⟩ | ⟨f, hf, hup, hact, rfl⟩ := runCommand_enc_cases henc h
  · rfl
  · rw [runCommand_of_encUpdate hf]
    exact whenEncActive_of_active f (s.withDec d u n) hup hact

/-! ### The commands of DEC -/

/-- A fault, a chunk and the end check do not read ENC's context. -/
theorem raise_withEnc (code : ErrCode) (x : FaultInfo) (e : EncCtx) (u : Bool) (s : State) :
    raise code x (s.withEnc e u) = (raise code x s).withEnc e u := rfl

theorem play_withEnc (i : Instr) (e : EncCtx) (u : Bool) (s : State) :
    play i (s.withEnc e u) = (play i s).withEnc e u := by
  rw [play_eq, play_eq]
  rfl

theorem exec_withEnc {i : Instr} {s t : State} (h : exec i s = .next t) (e : EncCtx) (u : Bool) :
    exec i (s.withEnc e u) = .next (t.withEnc e u) := by
  obtain ⟨hover, rfl⟩ | ⟨hfits, rfl⟩ := exec_cases h
  · exact exec_of_overruns i (s.withEnc e u) hover
  · rw [exec_of_not_overruns i (s.withEnc e u) hfits, play_withEnc]

theorem endCheck_withEnc (e : EncCtx) (u : Bool) (s : State) : endCheck (s.withEnc e u) = (endCheck s).withEnc e u := by
  unfold endCheck
  rw [apply_ite (State.withEnc e u), apply_ite (State.withEnc e u)]
  rfl

theorem decStep_withEnc {s t : State} (h : decStep s = .next t) (e : EncCtx) (u : Bool) :
    decStep (s.withEnc e u) = .next (t.withEnc e u) := by
  obtain ⟨hup, hact, ⟨r, herror, rfl⟩ | ⟨i, v, hfetch, hexec, rfl⟩⟩ := decStep_cases h
  · rw [decStep_of_error (s := s.withEnc e u) hup hact herror]
    cases r <;> rfl
  · rw [decStep_of_fetch (s := s.withEnc e u) hup hact hfetch (exec_withEnc hexec e u), endCheck_withEnc]

theorem decReset_withEnc (N : Nat) (In : List Byte) (e : EncCtx) (u : Bool) (s : State) :
    decReset N In (s.withEnc e u) = (decReset N In s).withEnc e u := by
  unfold decReset
  dsimp only
  rw [apply_ite (State.withEnc e u), apply_ite (State.withEnc e u)]
  rfl

/-- A command of DEC does not read ENC's context (R21). -/
theorem runCommand_withEnc {c : Command} {s t : State} (hdec : c.isEnc = false) (h : runCommand c s = .next t)
    (e : EncCtx) (u : Bool) : runCommand c (s.withEnc e u) = .next (t.withEnc e u) := by
  cases c with
  | decReset N In =>
    cases h
    exact congrArg _ (decReset_withEnc N In e u s)
  | decStep => exact decStep_withEnc h e u
  | encReset | encPixel | encFinish => cases hdec

/-- A command of DEC writes DEC's context only. -/
theorem runCommand_dec_frame {c : Command} {s t : State} (hdec : c.isEnc = false) (h : runCommand c s = .next t) :
    ∃ d u n, t = s.withDec d u n := by
  refine ⟨t.dec, t.decUp, t.free, ?_⟩
  cases c with
  | decReset N In =>
    cases h
    obtain ⟨x, -, h⟩ | ⟨-, -, -, h⟩ := decReset_cases N In s <;> rw [h] <;> rfl
  | decStep =>
    obtain ⟨henc, hencUp, -, hcntW, hhost, -, -⟩ := decStep_frame h
    rw [State.withDec, ← henc, ← hencUp, ← hcntW, ← hhost]
  | encReset | encPixel | encFinish => cases hdec

/-! ### The statements on privacy -/

/-- Settles O55: what each unit's commands read and write, one lemma for ENC's and one for DEC's. -/
theorem contextsArePrivate : Obligations.ContextsArePrivate := by
  unfold Obligations.ContextsArePrivate
  exact fun c s t h => ⟨fun henc => runCommand_withDec henc h, fun hdec => runCommand_withEnc hdec h⟩

/-- Settles O56: the second command runs the same before the first one, whose context it does not read, and leaves that
context for the first one to run on. -/
theorem commandsOfTheUnitsCommute : Obligations.CommandsOfTheUnitsCommute := by
  unfold Obligations.CommandsOfTheUnitsCommute
  intro c c' s u henc hdec
  constructor
  · rintro ⟨t, hfirst, hsecond⟩
    obtain ⟨e, up, rfl⟩ := runCommand_enc_frame henc hfirst
    obtain ⟨d, up', n, rfl⟩ := runCommand_dec_frame hdec hsecond
    exact ⟨s.withDec d up' n, runCommand_withEnc hdec hsecond s.enc s.encUp, runCommand_withDec henc hfirst d up' n⟩
  · rintro ⟨v, hfirst, hsecond⟩
    obtain ⟨d, up', n, rfl⟩ := runCommand_dec_frame hdec hfirst
    obtain ⟨e, up, rfl⟩ := runCommand_enc_frame henc hsecond
    exact ⟨s.withEnc e up, runCommand_withDec henc hsecond s.dec s.decUp s.free, runCommand_withEnc hdec hfirst e up⟩

/-! ### Only a reset leaves the end (R225, R252) -/

/-- Where DEC has ended, a command that is not its reset leaves its context alone, or does not answer. -/
theorem dec_eq_of_ended {c : Command} {s t : State} (hend : s.dec.phase ≠ .active) (hreset : ∀ N In, c ≠ .decReset N In)
    (h : runCommand c s = .next t) : t.dec = s.dec ∧ t.decUp = s.decUp := by
  cases henc : c.isEnc with
  | true =>
    obtain ⟨e, u, rfl⟩ := runCommand_enc_frame henc h
    exact ⟨rfl, rfl⟩
  | false =>
    cases c with
    | decReset N In => exact absurd rfl (hreset N In)
    | decStep =>
      obtain ⟨-, hact, -⟩ := decStep_cases h
      exact absurd hact hend
    | encReset | encPixel | encFinish => cases henc

/-- Where ENC has ended, a command that is not its reset leaves its context alone, or does not answer. -/
theorem enc_eq_of_ended {c : Command} {s t : State} (hend : s.enc.phase ≠ .active) (hreset : c ≠ .encReset)
    (h : runCommand c s = .next t) : t.enc = s.enc ∧ t.encUp = s.encUp := by
  cases henc : c.isEnc with
  | true =>
    obtain ⟨rfl, -⟩ | ⟨f, -, -, hact, -⟩ := runCommand_enc_cases henc h
    · exact absurd rfl hreset
    · exact absurd hact hend
  | false =>
    obtain ⟨d, u, n, rfl⟩ := runCommand_dec_frame henc h
    exact ⟨rfl, rfl⟩

/-- Settles O54: the other unit's commands do not write the context, and the unit's own answer in ACTIVE only. -/
theorem onlyAResetLeavesTheEnd : Obligations.OnlyAResetLeavesTheEnd := by
  unfold Obligations.OnlyAResetLeavesTheEnd
  intro s t h
  refine ⟨fun hup hend hreset => ?_, fun hup hend hreset => ?_⟩
  · obtain ⟨hdec, hdecUp⟩ := dec_eq_of_ended (s := takeCommand s) hend hreset h
    exact ⟨hdec, hdecUp.trans hup⟩
  · obtain ⟨henc, hencUp⟩ := enc_eq_of_ended (s := takeCommand s) hend hreset h
    exact ⟨henc, hencUp.trans hup⟩

end Sys2Proof.Machine
end

section
/-!
The invariant of the block, kept by every step, and with it that `prev` stands in its slot (10_state.md R24 to R35,
41_pixel_cache.md R128, 44_laws.md R200).
-/
namespace Sys2Proof.Machine

/-! ### ENC -/

theorem encInv_reset : EncCtx.reset.Inv := ⟨Nat.zero_le 61, prevCached_reset, slotsOwned_resetCache⟩

theorem encUpdate_cases {c : Command} {f : EncCtx → EncCtx} (h : c.encUpdate = some f) :
    (∃ P, f = encodePixel P) ∨ f = finishEnc := by
  cases c with
  | encPixel P =>
    cases h
    exact .inl ⟨P, rfl⟩
  | encFinish =>
    cases h
    exact .inr rfl
  | encReset | decReset | decStep => cases h

theorem prevCached_encodePixel (P : Pixel) {e : EncCtx} (h : PrevCached e.prev e.C) :
    PrevCached (encodePixel P e).prev (encodePixel P e).C := by
  rw [encodePixel_prev, encodePixel_C]
  split
  case isTrue hP =>
    subst hP
    exact h
  case isFalse => exact prevCached_cacheWrite P e.C

theorem slotsOwned_encodePixel (P : Pixel) {e : EncCtx} (h : SlotsOwned e.C) : SlotsOwned (encodePixel P e).C := by
  rw [encodePixel_C]
  split
  · exact h
  · exact slotsOwned_cacheWrite P e.C h

theorem prevCached_encUpdate {c : Command} {f : EncCtx → EncCtx} {e : EncCtx} (hf : c.encUpdate = some f)
    (h : PrevCached e.prev e.C) : PrevCached (f e).prev (f e).C := by
  obtain ⟨P, rfl⟩ | rfl := encUpdate_cases hf
  · exact prevCached_encodePixel P h
  · rwa [finishEnc_prev, finishEnc_C]

theorem encInv_encUpdate {c : Command} {f : EncCtx → EncCtx} {e : EncCtx} (hf : c.encUpdate = some f) (h : e.Inv) :
    (f e).Inv := by
  obtain ⟨hrun, hcached, howned⟩ := h
  refine ⟨?_, prevCached_encUpdate hf hcached, ?_⟩ <;> obtain ⟨P, rfl⟩ | rfl := encUpdate_cases hf
  · exact encodePixel_run_le P e hrun
  · rw [finishEnc_run]
    exact Nat.zero_le 61
  · exact slotsOwned_encodePixel P howned
  · rwa [finishEnc_C]

/-- What holds of ENC's context after reset and is kept by `EncPixel` and `EncFinish` is kept by every command. -/
theorem enc_kept {p : EncCtx → Prop} (hreset : p EncCtx.reset)
    (hupdate : ∀ (c : Command) (f : EncCtx → EncCtx) (e : EncCtx), c.encUpdate = some f → p e → p (f e))
    {c : Command} {s t : State} (h : runCommand c s = .next t) (hs : s.encUp = true → p s.enc) :
    t.encUp = true → p t.enc := by
  cases henc : c.isEnc with
  | true =>
    obtain ⟨-, rfl⟩ | ⟨f, hf, hup, -, rfl⟩ := runCommand_enc_cases henc h
    · exact fun _ => hreset
    · exact fun _ => hupdate c f s.enc hf (hs hup)
  | false =>
    obtain ⟨d, u, n, rfl⟩ := runCommand_dec_frame henc h
    exact hs

/-! ### DEC -/

/-- What holds of DEC's context after reset and is kept by `DecStep` is kept by every command; a refused reset needs it
of the fault it leaves. -/
theorem dec_kept {p : Option Nat → DecCtx → Prop}
    (hreset : ∀ N In w, N ≠ 0 → cntFits w N = true → cntFits w In.length = true → p w (DecCtx.reset N In))
    (hrefused : ∀ w (d : DecCtx), d.phase = .fault → d.err = .invalidArgument → p w d)
    (hstep : ∀ s t : State, decStep s = .next t → p s.cntW s.dec → p t.cntW t.dec)
    {c : Command} {s t : State} (h : runCommand c s = .next t) (hs : s.decUp = true → p s.cntW s.dec) :
    t.decUp = true → p t.cntW t.dec := by
  cases henc : c.isEnc with
  | true =>
    obtain ⟨e, u, rfl⟩ := runCommand_enc_frame henc h
    exact hs
  | false =>
    cases c with
    | decReset N In =>
      cases h
      obtain ⟨x, -, h⟩ | ⟨hN, hfits, hfits', h⟩ := decReset_cases N In s <;> rw [h] <;> intro
      · exact hrefused _ _ rfl rfl
      · exact hreset N In s.cntW hN hfits hfits'
    | decStep => exact fun _ => hstep s t h (hs (decStep_cases h).1)
    | encReset | encPixel | encFinish => cases henc

theorem prevCached_play (i : Instr) {s : State} (h : PrevCached s.dec.prev s.dec.C) :
    PrevCached (play i s).dec.prev (play i s).dec.C := prevCached_produceAll (pixelsOf i s.dec) s h

/-- A `DecStep` keeps `prev` in its slot, unless it faults. -/
theorem prevCached_decStep {s t : State} (h : decStep s = .next t)
    (hs : s.dec.phase ≠ .fault → PrevCached s.dec.prev s.dec.C) (ht : t.dec.phase ≠ .fault) : PrevCached t.dec.prev t.dec.C := by
  obtain ⟨-, hact, ⟨r, -, rfl⟩ | ⟨i, u, -, hexec, rfl⟩⟩ := decStep_cases h
  · cases r <;> exact absurd rfl ht
  obtain ⟨-, rfl⟩ | ⟨-, rfl⟩ := exec_cases hexec
  · exact absurd rfl ht
  have hcached := prevCached_play i (hs (by rw [hact]; nofun))
  obtain ⟨-, hcheck⟩ | ⟨-, -, -, hcheck⟩ | ⟨-, -, -, hcheck⟩ := endCheck_cases (play i s) <;> rw [hcheck] at ht ⊢
  · exact hcached
  · exact hcached
  · exact absurd rfl ht

theorem sound_reset {w : Option Nat} {N : Nat} {In : List Byte} (hN : N ≠ 0) (hfits : cntFits w N = true)
    (hfits' : cntFits w In.length = true) : (DecCtx.reset N In).Sound w :=
  ⟨rfl, rfl, Nat.zero_le N, Nat.zero_le _, Nat.one_le_iff_ne_zero.2 hN, hfits, hfits', prevCached_reset,
    slotsOwned_resetCache⟩

/-- A chunk that fits the pixels missing and the bytes left keeps DEC's context sound. -/
theorem sound_play {w : Option Nat} {i : Instr} {s : State} (h : s.dec.Sound w)
    (hpixels : s.dec.opos + i.pixels ≤ s.dec.N) (hbytes : s.dec.cur + i.length ≤ s.dec.blen) : (play i s).dec.Sound w := by
  obtain ⟨herr, hopos, -, -, hN, hfits, hfits', hcached, howned⟩ := h
  refine ⟨?_, ?_, ?_, ?_, ?_, ?_, ?_, prevCached_play i hcached, slotsOwned_produceAll (pixelsOf i s.dec) s howned⟩
  · rwa [play_err]
  · rw [play_opos, play_PxOut, List.length_append, pixelsOf_length, hopos]
  · rwa [play_opos, play_N]
  · rwa [play_cur, play_blen]
  · rwa [play_N]
  · rwa [play_N]
  · rwa [play_blen]

theorem decInv_of_fault {w : Option Nat} {d : DecCtx} (hphase : d.phase = .fault)
    (herr : d.err = .invalidArgument ∨ d.err = .decodeLengthMismatch) : d.Inv w := by
  rw [DecCtx.Inv, hphase]
  exact ⟨nofun, nofun, fun _ => herr⟩

theorem decInv_of_active {w : Option Nat} {d : DecCtx} (hphase : d.phase = .active) (hsound : d.Sound w)
    (hroom : d.opos < d.N) : d.Inv w := by
  rw [DecCtx.Inv, hphase]
  exact ⟨fun _ => ⟨hsound, hroom⟩, nofun, nofun⟩

/-- A `DecStep` keeps DEC's invariant: it ends in a fault, ends on the last pixel and byte, or goes on with pixels
missing. -/
theorem decInv_decStep {s t : State} (h : decStep s = .next t) (hinv : s.dec.Inv s.cntW) : t.dec.Inv t.cntW := by
  obtain ⟨hup, hact, -⟩ := decStep_cases h
  obtain ⟨hsound, hroom⟩ := hinv.1 hact
  obtain ⟨u, hstep, houtcome⟩ := decStep_outcomes hup hact hsound.1 hroom
  rw [h] at hstep
  cases hstep
  obtain ⟨r, -, hphase, herr⟩ | ⟨i, -, hbytes, houtcome⟩ := houtcome
  · exact decInv_of_fault hphase (.inr herr)
  obtain ⟨-, hphase, herr⟩ | ⟨-, -, hphase, herr⟩ | ⟨hlast, hend, rfl⟩ | ⟨hmissing, rfl⟩ := houtcome
  · exact decInv_of_fault hphase (.inr herr)
  · exact decInv_of_fault hphase (.inr herr)
  · refine ⟨nofun, fun _ => ⟨?_, ?_, ?_⟩, nofun⟩
    · rw [play_cntW]
      exact sound_play hsound hlast.ge hbytes
    · rw [play_opos, play_N, hlast]
    · exact (play_cur i s).trans (hend.trans (play_blen i s).symm)
  · refine decInv_of_active ((play_phase i s).trans hact) ?_ ?_
    · rw [play_cntW]
      exact sound_play hsound hmissing.le hbytes
    · rwa [play_opos, play_N]

/-! ### The statements -/

/-- Settles O57: the reset contexts meet their invariants, DEC's with one pixel missing from the empty body. -/
theorem resetMeetsInvariant : Obligations.ResetMeetsInvariant := by
  unfold Obligations.ResetMeetsInvariant
  exact ⟨fun _ => encInv_reset, fun _ => decInv_of_active rfl (sound_reset (by decide) rfl rfl) (by decide)⟩

/-- Settles O58: each unit's commands keep its own invariant, and do not write the other's context. -/
theorem stepKeepsInvariant : Obligations.StepKeepsInvariant := by
  unfold Obligations.StepKeepsInvariant
  intro s t ⟨henc, hdec⟩ h
  refine ⟨enc_kept encInv_reset (fun _ _ _ => encInv_encUpdate) h henc, dec_kept (p := DecCtx.Inv) ?_ ?_ ?_ h hdec⟩
  · exact fun N In w hN hfits hfits' => decInv_of_active rfl (sound_reset hN hfits hfits') (Nat.pos_of_ne_zero hN)
  · exact fun w d hphase herr => decInv_of_fault hphase (.inl herr)
  · exact fun s t => decInv_decStep

/-- `prev` stands in its slot while no fault has ended the invocation. -/
def CachedUnlessFault (d : DecCtx) : Prop := d.phase ≠ .fault → PrevCached d.prev d.C

/-- Settles O59: a production writes `prev` to its slot, ENC writes the slot of each pixel that becomes `prev`, and both
resets put START in its own. -/
theorem prevStandsInItsSlot : Obligations.PrevStandsInItsSlot := by
  unfold Obligations.PrevStandsInItsSlot
  refine ⟨prevCached_reset, fun _ _ => prevCached_reset, fun p s => prevCached_cacheWrite p s.dec.C,
    fun s t h => ⟨?_, ?_⟩⟩
  · exact enc_kept (p := fun e => PrevCached e.prev e.C) prevCached_reset (fun _ _ _ => prevCached_encUpdate)
      (s := takeCommand s) h
  · refine dec_kept (p := fun _ => CachedUnlessFault) ?_ ?_ ?_ (s := takeCommand s) h
    · exact fun _ _ _ _ _ _ _ => prevCached_reset
    · exact fun _ d hphase _ hnot => absurd hphase hnot
    · exact fun s t => prevCached_decStep

end Sys2Proof.Machine
end

section
/-!
Lockstep: DEC on ENC's body, production by production (44_laws.md R201).
-/
namespace Sys2Proof.Machine

/-! ### The first chunks of a body -/

/-- As long as chunks are left, DEC plays those before them one step each. -/
theorem runSteps_of_reads {is js : List Instr} {s : State} (hwf : ∀ i ∈ is ++ js, i.wf = true)
    (hjs : js ≠ []) (h : Reads (is ++ js) s) (hhost : s.host = [])
    (hall : s.dec.opos + ((is ++ js).map Instr.pixels).sum = s.dec.N) :
    runSteps is.length s = .next (playAll is s) ∧ Reads js (playAll is s) := by
  induction is generalizing s with
  | nil => exact ⟨rfl, h⟩
  | cons i is ih =>
    obtain ⟨t, hstep, ⟨rfl, hreads⟩ | ⟨hnil, -, -⟩ | ⟨-, hne⟩⟩ := decStep_of_reads_cons hwf h
    · rw [List.cons_append, List.map_cons, List.sum_cons, ← Nat.add_assoc] at hall
      obtain ⟨hrun, hrest⟩ := ih (fun j hj => hwf j (List.mem_cons_of_mem i hj)) hreads ((play_host i s).trans hhost)
        (by rwa [play_opos, play_N])
      exact ⟨(runSteps_succ is.length ((step_of_no_command hhost).trans hstep)).trans hrun, hrest⟩
    · exact absurd (List.append_eq_nil_iff.1 hnil).2 hjs
    · exact absurd hall hne

theorem chunksOf_cons (P : Pixel) (Px : List Pixel) (e : EncCtx) :
    chunksOf (P :: Px) e = emitted P e ++ chunksOf Px (encodePixel P e) := List.append_assoc ..

/-- The chunk that covers a pending run comes next, whatever pixels follow: a RUN at least as long. -/
theorem chunksOf_of_run_pos (Px : List Pixel) {e : EncCtx} (hrun : 0 < e.run) :
    ∃ count is, chunksOf Px e = .run count :: is ∧ e.run ≤ count := by
  have hflushed : flushed e = [.run e.run] := if_pos hrun
  induction Px generalizing e with
  | nil => exact ⟨e.run, [], hflushed, Nat.le_refl _⟩
  | cons P Px ih =>
    rw [chunksOf_cons, emitted]
    by_cases hP : P = e.prev
    · subst hP
      rw [if_pos rfl, encodePixel_of_prev]
      by_cases hfull : e.run + 1 = 62
      · rw [if_pos hfull]
        exact ⟨62, _, rfl, by omega⟩
      · rw [if_neg hfull, extendRun_of_not_full hfull]
        obtain ⟨count, is, hchunks, hle⟩ :=
          ih (e := { e with run := e.run + 1 }) (Nat.succ_pos _) (if_pos (Nat.succ_pos _))
        exact ⟨count, is, hchunks, Nat.le_of_succ_le hle⟩
    · rw [if_neg hP, hflushed]
      exact ⟨e.run, _, rfl, Nat.le_refl _⟩

/-! ### The moment after `k` productions -/

/-- DEC in step with ENC, and as many repetitions of a RUN chunk done as ENC has pixels pending: the contexts agree, and
the pixels are those that ENC has consumed. -/
theorem repeatPrev_run {s : State} {e : EncCtx} {Px : List Pixel} (h : InStep s e)
    (hPx : s.dec.PxOut ++ List.replicate e.run e.prev = Px) :
    (repeatPrev e.run s).dec.prev = e.prev ∧ (repeatPrev e.run s).dec.C = e.C ∧
      (repeatPrev e.run s).dec.PxOut = Px := by
  have hcached : PrevCached s.dec.prev s.dec.C := by
    rw [h.prev, h.C]
    exact h.cached
  obtain ⟨hprev, hC⟩ := play_run e.run s hcached
  rw [repeatPrev_eq_produceAll]
  refine ⟨hprev.trans h.prev, hC.trans h.C, ?_⟩
  rw [produceAll_eq, h.prev]
  exact hPx

/-- DEC has just been started on the body of `Px`. -/
def started (Px : List Pixel) : State := latched Px.length (encodeBody Px) State.reset

theorem inStep_started (Px : List Pixel) : InStep (started Px) EncCtx.reset := inStep_reset _ _ _ rfl

/-- DEC after the chunks that the first pixels of a body have put out. -/
def afterPrefix (Px Qx : List Pixel) : State := playAll (emittedAll Px EncCtx.reset) (started (Px ++ Qx))

theorem inStep_afterPrefix (Px Qx : List Pixel) :
    InStep (afterPrefix Px Qx) (encodePixels Px EncCtx.reset) ∧
      (afterPrefix Px Qx).dec.PxOut ++
        List.replicate (encodePixels Px EncCtx.reset).run (encodePixels Px EncCtx.reset).prev = Px :=
  inStep_encodePixels Px (inStep_started (Px ++ Qx))

theorem opos_afterPrefix (Px Qx : List Pixel) :
    (afterPrefix Px Qx).dec.opos + (encodePixels Px EncCtx.reset).run = Px.length := by
  have hpixels := emittedAll_pixels Px EncCtx.reset
  rw [afterPrefix, playAll_opos, show (started (Px ++ Qx)).dec.opos = 0 from rfl, Nat.zero_add, hpixels]
  exact Nat.zero_add _

theorem reads_started {Px : List Pixel} (hne : Px ≠ []) : Reads (chunksOf Px EncCtx.reset) (started Px) :=
  ⟨rfl, rfl, rfl, List.length_pos_iff.2 hne, encodeBody_eq Px⟩

/-- The chunks of a body represent all the pixels that DEC is to produce. -/
theorem pixels_started (Px : List Pixel) :
    (started Px).dec.opos + ((chunksOf Px EncCtx.reset).map Instr.pixels).sum = (started Px).dec.N := by
  rw [chunksOf_pixels]
  exact (Nat.zero_add _).trans (Nat.zero_add _)

/-- With chunks left, DEC reaches that moment in ACTIVE. -/
theorem runSteps_afterPrefix {Px Qx : List Pixel} (hne : Px ++ Qx ≠ [])
    (hleft : chunksOf Qx (encodePixels Px EncCtx.reset) ≠ []) :
    runSteps (emittedAll Px EncCtx.reset).length (started (Px ++ Qx)) = .next (afterPrefix Px Qx) ∧
      Reads (chunksOf Qx (encodePixels Px EncCtx.reset)) (afterPrefix Px Qx) := by
  have hwf := chunksOf_wf (Px ++ Qx) EncCtx.reset (Nat.zero_le 61)
  have hreads := reads_started hne
  have hpixels := pixels_started (Px ++ Qx)
  rw [chunksOf_append] at hwf hreads hpixels
  exact runSteps_of_reads hwf hleft hreads rfl hpixels

/-- With no chunk left, DEC has ended in DONE. -/
theorem runSteps_finished {Px Qx : List Pixel} (hne : Px ++ Qx ≠ [])
    (hleft : chunksOf Qx (encodePixels Px EncCtx.reset) = []) :
    ∃ j, runSteps j (started (Px ++ Qx)) = .next (finished (afterPrefix Px Qx)) := by
  have hwf := chunksOf_wf (Px ++ Qx) EncCtx.reset (Nat.zero_le 61)
  have hall : chunksOf (Px ++ Qx) EncCtx.reset = emittedAll Px EncCtx.reset := by
    rw [chunksOf_append, hleft, List.append_nil]
  obtain ⟨j, -, hrun⟩ := runSteps_decodeWhileActive (started (Px ++ Qx)).dec.N (s := started (Px ++ Qx)) rfl rfl
  obtain ⟨hdone, -⟩ := decodeWhileActive_of_reads hwf (reads_started hne) (Nat.le_add_left _ _)
  rw [hdone (pixels_started (Px ++ Qx)), hall] at hrun
  exact ⟨j, hrun⟩

/-- Settles O44: played chunk by chunk, a body keeps DEC in step with ENC; the pixels that ENC has pending after `k` of them
are the first repetitions of the RUN chunk that comes next. -/
theorem lockstep : Obligations.Lockstep := by
  unfold Obligations.Lockstep
  intro Rx hne k hk
  obtain ⟨Px, Qx, rfl, rfl⟩ : ∃ Px Qx : List Pixel, Rx = Px ++ Qx ∧ k = Px.length :=
    ⟨Rx.take k, Rx.drop k, (List.take_append_drop k Rx).symm, (List.length_take_of_le hk).symm⟩
  have hstart : decReset (Px ++ Qx).length (encodeBody (Px ++ Qx)) State.reset = started (Px ++ Qx) :=
    decReset_eq_latched _ (List.length_pos_iff.2 hne) rfl
  obtain ⟨hinStep, hPxOut⟩ := inStep_afterPrefix Px Qx
  have hopos := opos_afterPrefix Px Qx
  rw [hstart, List.take_left]
  by_cases hleft : chunksOf Qx (encodePixels Px EncCtx.reset) = []
  · obtain ⟨j, hrun⟩ := runSteps_finished hne hleft
    have hnone : (encodePixels Px EncCtx.reset).run = 0 := by
      by_contra hrun
      obtain ⟨count, is, hchunks, -⟩ := chunksOf_of_run_pos Qx (Nat.pos_of_ne_zero hrun)
      rw [hleft] at hchunks
      cases hchunks
    have hfinished : InStep (finished (afterPrefix Px Qx)) (encodePixels Px EncCtx.reset) :=
      ⟨hinStep.prev, hinStep.C, hinStep.cached⟩
    exact ⟨j, _, _, hrun, nofun, hopos, .inl hnone, repeatPrev_run hfinished hPxOut⟩
  · obtain ⟨hrun, hreads⟩ := runSteps_afterPrefix hne hleft
    refine ⟨_, _, _, hrun, ?_, hopos, ?_, repeatPrev_run hinStep hPxOut⟩
    · rw [hreads.active]
      nofun
    · obtain hnone | hpending := Nat.eq_zero_or_pos (encodePixels Px EncCtx.reset).run
      · exact .inl hnone
      · obtain ⟨count, is, hchunks, hle⟩ := chunksOf_of_run_pos Qx hpending
        have hwf := chunksOf_wf Qx _ (encodePixels_run_le Px EncCtx.reset (Nat.zero_le 61)) (.run count)
          (by rw [hchunks]; exact List.mem_cons_self)
        have hdecode := decode_encode_append hwf (is.flatMap encode)
        rw [← List.flatMap_cons, ← hchunks, ← hreads.bytes] at hdecode
        exact .inr ⟨hreads.active, count, fetchInstr_of_decode hdecode, hle⟩

end Sys2Proof.Machine
end

section
/-!
Execution of one chunk: INDEX, the frame of all six, and the step around an execution (43_chunk_decoder.md R173, R174,
R181, 60_exceptions.md R224).
-/
namespace Sys2Proof.Machine

/-! ### INDEX (R174) -/

/-- In a cache that reset and cache writes have filled, a slot holds a pixel of its own or the zero pixel, which every
slot but 53 was reset to (R128). -/
theorem eq_zero_of_not_own {C : Cache} {i : Slot} (howned : SlotsOwned C) (h : hash (cacheRead i C) ≠ i) :
    cacheRead i C = Config.zero := by
  obtain hreset | hown := howned i
  · rw [hreset, cacheRead_resetCache] at h ⊢
    split
    case isTrue hi =>
      subst hi
      exact absurd rfl h
    case isFalse => rfl
  · exact absurd hown h

/-- Settles O19: the chunk produces the pixel of its slot; that pixel is of the slot, and its write changes nothing, or it
is the zero pixel. -/
theorem indexExecution : Obligations.IndexExecution := by
  unfold Obligations.IndexExecution
  intro i s
  refine ⟨exec_of_kind_ne_run nofun rfl, fun hown => ?_, fun howned hnot => ?_⟩
  · exact cacheWrite_of_cached s.dec.C[i] s.dec.C (congrArg (cacheRead · s.dec.C) hown)
  · have hzero : s.dec.C[i] = Config.zero := eq_zero_of_not_own howned hnot
    rw [hzero]
    exact ⟨rfl, rfl⟩

/-- Settles O31: the RGBA chunk run from reset, then INDEX 5 executed. -/
theorem indexMayRewriteSlotZero : Obligations.IndexMayRewriteSlotZero := by
  unfold Obligations.IndexMayRewriteSlotZero
  exact ⟨_, _, rfl, by decide, rfl, by decide⟩

/-! ### The frame (R60, R173, R185) -/

/-- Settles O23: an execution is the fault of an overrun or the production of the chunk's pixels and the move of the
cursor. -/
theorem chunkFrame : Obligations.ChunkFrame := by
  unfold Obligations.ChunkFrame
  intro i s t hexec
  obtain ⟨⟨count, hi, hlt⟩, rfl⟩ | ⟨-, rfl⟩ := exec_cases hexec
  · exact ⟨rfl, rfl, rfl, rfl, rfl, rfl, rfl, .inl ⟨count, hi, hlt, rfl⟩⟩
  · rw [play_eq]
    have hopos : s.dec.opos + i.pixels = s.dec.opos + (pixelsOf i s.dec).length := by rw [pixelsOf_length]
    exact ⟨rfl, rfl, rfl, rfl, rfl, rfl, rfl, .inr ⟨rfl, rfl, rfl, rfl, pixelsOf i s.dec, pixelsOf_length i s.dec, rfl, hopos,
      fun k hk => cacheRead_foldl_cacheWrite _ _ k hk⟩⟩

/-! ### Fault entry (R224) and the step (R181) -/

/-- Settles O27: the defined fields of `raise`, the cause being no part of its result. -/
theorem faultEntryDefinedPart : Obligations.FaultEntryDefinedPart := by
  unfold Obligations.FaultEntryDefinedPart
  intro code x y s
  exact ⟨rfl, fun hclear => by rw [raise_err, if_pos hclear], fun hset => by rw [raise_err, if_neg hset],
    rfl, rfl, rfl, rfl, rfl, rfl, rfl, rfl⟩

/-- Settles O24: the fetch finds the chunk that the bytes at the cursor decode to. -/
theorem stepRunsDecodedChunk : Obligations.StepRunsDecodedChunk := by
  unfold Obligations.StepRunsDecodedChunk
  intro s t i rest hready hdecode hexec
  have ⟨_, hup, hact⟩ := hready
  rw [step_of_decReady hready]
  exact decStep_of_fetch (s := takeCommand s) hup hact (fetchInstr_of_decode hdecode) hexec

/-! ### A chunk placed where the next step fetches -/

/-- What is written over a sequence stands at the offset. -/
theorem drop_overwrite (seq : List Byte) (offset : Nat) (bytes : List Byte) :
    (overwrite seq offset bytes).drop offset = bytes ++ seq.drop (offset + bytes.length) := by
  have hlength : ((seq ++ List.replicate (offset - seq.length) 0).take offset).length = offset := by
    rw [List.length_take, List.length_append, List.length_replicate]
    omega
  rw [overwrite, List.append_assoc, List.drop_append_of_le_length hlength.ge, List.drop_eq_nil_of_le hlength.le,
    List.nil_append]

theorem decode_of_decodeTableWord {nbits w : Nat} {i : Instr} (h : decodeTableWord nbits w = some i) :
    ∃ rest, decode (tableBytes nbits w) = .ok (i, rest) := by
  unfold decodeTableWord at h
  cases hdecode : decode (tableBytes nbits w) with
  | error r =>
    rw [hdecode] at h
    cases h
  | ok x =>
    rw [hdecode] at h
    cases h
    exact ⟨x.2, rfl⟩

theorem pixels_le_runMax {i : Instr} (h : i.wf = true) : i.pixels ≤ Config.runMax := by
  cases i with
  | run count => exact ((wf_run_iff count).1 h).2
  | rgb | rgba | index | diff | luma => exact Nat.le_add_left 1 61

/-- Settles O60: the bytes placed are those at the cursor, and `N` leaves room for more pixels than any chunk represents, so
that neither an overrun nor the end check applies. -/
theorem placedChunkRunsNext : Obligations.PlacedChunkRunsNext := by
  unfold Obligations.PlacedChunkRunsNext
  intro s nbits w i hword
  obtain ⟨rest, hbytes⟩ := decode_of_decodeTableWord hword
  have hdecode : decode ((s.withFetchWord nbits w).dec.In.drop (s.withFetchWord nbits w).dec.cur) = .ok (i, _) :=
    (congrArg decode (drop_overwrite s.dec.In s.dec.cur (tableBytes nbits w))).trans (decode_append hbytes _)
  have hN : (s.withFetchWord nbits w).dec.opos + Config.runMax + 1 ≤ (s.withFetchWord nbits w).dec.N := le_max_right _ _
  have hpixels := pixels_le_runMax (wf_of_decode hbytes)
  have hexec := exec_of_not_overruns i (s.withFetchWord nbits w) (not_overruns_of_le (by omega))
  have hcheck : endCheck (play i (s.withFetchWord nbits w)) = play i (s.withFetchWord nbits w) := by
    refine if_neg fun hend => ?_
    rw [play_opos, play_N] at hend
    omega
  refine ⟨_, hexec, ?_, play_phase i _⟩
  rw [step_of_no_command rfl, decStep_of_fetch rfl rfl (fetchInstr_of_decode hdecode) hexec, hcheck]

end Sys2Proof.Machine
end

section
/-!
The reset values and the reset commands, and ENC's commands, which always complete (10_state.md R38,
70_reset_and_hazards.md R251, 42_chunk_encoder.md R135).
-/
namespace Sys2Proof.Machine

/-- Settles O52: the reset state's fields by definition, its two caches by the slots of the reset cache. -/
theorem resetStateValues : Obligations.ResetStateValues := by
  unfold Obligations.ResetStateValues
  have hzero (i : Slot) (hi : i ≠ 53) : cacheRead i resetCache = ⟨0, 0, 0, 0⟩ := by
    rw [cacheRead_resetCache, if_neg hi]
    rfl
  exact ⟨rfl, rfl, rfl, fun i hi => ⟨hzero i hi, hzero i hi⟩,
    rfl, rfl, rfl, rfl, rfl, rfl, rfl, rfl, rfl, rfl, rfl, rfl⟩

/-- A count fits the counters unless the build has a width too narrow for it (R223). -/
theorem cntFits_iff {cntW : Option Nat} {n : Nat} : cntFits cntW n = true ↔ ∀ w, cntW = some w → n < 2 ^ w := by
  cases cntW with
  | none => exact iff_of_true rfl nofun
  | some w => simp [cntFits]

/-- Settles O51: the two outcomes of the command, which its operands tell apart. -/
theorem decResetEffect : Obligations.DecResetEffect := by
  unfold Obligations.DecResetEffect
  intro s N In hnext fits
  have hstep : step s = .next (decReset N In (takeCommand s)) := step_of_command hnext
  have hfits (n : Nat) : cntFits s.cntW n = true ↔ fits n := cntFits_iff
  rw [hstep]
  obtain ⟨x, hrefused, h⟩ | ⟨hN, hcount, hlength, h⟩ := decReset_cases N In (takeCommand s) <;> rw [h]
  · refine ⟨fun hN hcount hlength => ?_, fun _ => ⟨_, rfl, rfl, rfl, rfl, rfl, rfl, rfl, rfl, rfl⟩⟩
    simp only [takeCommand_cntW, (hfits N).2 hcount, (hfits In.length).2 hlength, hN, reduceCtorEq, or_self] at hrefused
  · refine ⟨fun _ _ _ => rfl, fun hrefused => ?_⟩
    obtain hzero | hnot | hnot := hrefused
    · exact absurd hzero hN
    · exact absurd ((hfits N).1 hcount) hnot
    · exact absurd ((hfits In.length).1 hlength) hnot

/-- Settles O38: each command as its update of ENC's context, from every pixel. -/
theorem encCommandsComplete : Obligations.EncCommandsComplete := by
  unfold Obligations.EncCommandsComplete
  intro s
  refine ⟨fun P hready => ?_, fun hready => ?_, fun hnext => ?_⟩
  · have ⟨_, hup, hact⟩ := hready
    exact ⟨_, step_of_encPixelReady hready, (encodePixel_phase P s.enc).trans hact, encodePixel_prev P s.enc, hup, rfl⟩
  · have ⟨_, hup, _⟩ := hready
    exact ⟨_, step_of_encFinishReady hready, rfl, finishEnc_run s.enc, hup, rfl⟩
  · exact ⟨_, step_of_encReset hnext, rfl, rfl, rfl⟩

end Sys2Proof.Machine
end

section
/-!
The chunks of a body, what ENC never emits among them, and that each is a smallest one (42_chunk_encoder.md R149 to R153,
30_encoding.md R94).
-/
namespace Sys2Proof.Machine

/-! ### A body is whole chunks (R149) -/

/-- Disassembly finds the chunks that ENC emitted. -/
theorem disassemble_encodeBody (Px : List Pixel) : disassemble (encodeBody Px) = (chunksOf Px EncCtx.reset, []) := by
  have hsplit := disassemble_encode_append (chunksOf_wf Px EncCtx.reset (Nat.zero_le 61)) (.inl rfl)
  rwa [List.append_nil, ← encodeBody_eq] at hsplit

/-- Settles O37: the operands of each chunk builder are in range, `run` is at most 61 after any pixels, and the chunks
emitted represent the pixels consumed. -/
theorem encodedBodyIsChunks : Obligations.EncodedBodyIsChunks := by
  unfold Obligations.EncodedBodyIsChunks
  refine ⟨selectChunk_wf, rfl, fun e hpending hrun => ?_, fun Px => encodePixels_run_le Px EncCtx.reset (Nat.zero_le 61),
    fun Px => ?_⟩
  · exact (wf_run_iff e.run).2 ⟨of_decide_eq_true hpending, Nat.le_succ_of_le hrun⟩
  · exact ⟨chunksOf Px EncCtx.reset, chunksOf_wf Px EncCtx.reset (Nat.zero_le 61), encodeBody_eq Px,
      disassemble_encodeBody Px, (chunksOf_pixels Px EncCtx.reset).trans (Nat.zero_add _)⟩

/-! ### The first match is a smallest one (R151) -/

/-- A move within the signed 8-bit range is the wrapped difference that ENC computes. -/
theorem delta_movedPixel {prev : Pixel} {dr dg db : Int} (hr : -128 ≤ dr ∧ dr ≤ 127) (hg : -128 ≤ dg ∧ dg ≤ 127)
    (hb : -128 ≤ db ∧ db ≤ 127) :
    delta (movedPixel prev dr dg db).r prev.r = dr ∧ delta (movedPixel prev dr dg db).g prev.g = dg ∧
      delta (movedPixel prev dr dg db).b prev.b = db :=
  ⟨delta_addDelta _ _ hr.1 hr.2, delta_addDelta _ _ hg.1 hg.2, delta_addDelta _ _ hb.1 hb.2⟩

/-- A chunk of at most four bytes does where alpha is unchanged. -/
theorem length_selectMiss_le_four {P prev : Pixel} (ha : P.a = prev.a) : (selectMiss P prev).length ≤ 4 := by
  obtain ⟨hne, -⟩ | ⟨-, -, h⟩ | ⟨-, -, -, h⟩ | ⟨-, -, -, h⟩ := selectMiss_cases P prev
  · exact absurd ha hne
  all_goals rw [h]; simp only [Instr.length]; omega

theorem length_selectMiss_movedPixel_diff {prev : Pixel} {dr dg db : Int} (hwf : (Instr.diff dr dg db).wf = true) :
    (selectMiss (movedPixel prev dr dg db) prev).length = 1 := by
  obtain ⟨hr, hg, hb⟩ := (wf_diff_iff dr dg db).1 hwf
  obtain ⟨er, eg, eb⟩ :=
    delta_movedPixel (prev := prev) (dr := dr) (dg := dg) (db := db) (by omega) (by omega) (by omega)
  have hselect := selectMiss_of_fitsDiff (P := movedPixel prev dr dg db) (prev := prev) rfl
    (by rw [er, eg, eb]; exact hwf)
  rw [hselect]
  rfl

theorem length_selectMiss_movedPixel_luma {prev : Pixel} {dg drg dbg : Int} (hwf : (Instr.luma dg drg dbg).wf = true) :
    (selectMiss (movedPixel prev (drg + dg) dg (dbg + dg)) prev).length ≤ 2 := by
  obtain ⟨hg, hr, hb⟩ := (wf_luma_iff dg drg dbg).1 hwf
  obtain ⟨er, eg, eb⟩ :=
    delta_movedPixel (prev := prev) (dr := drg + dg) (dg := dg) (db := dbg + dg) (by omega) (by omega) (by omega)
  have hfits : fitsLuma (drg + dg) dg (dbg + dg) = true := (fitsLuma_iff _ _ _).2 (by omega)
  obtain ⟨hne, -⟩ | ⟨-, -, h⟩ | ⟨-, -, -, h⟩ | ⟨-, -, hnot, -⟩ :=
    selectMiss_cases (movedPixel prev (drg + dg) dg (dbg + dg)) prev
  · exact absurd rfl hne
  · rw [h]
    exact Nat.le_succ 1
  · rw [h]
    exact Nat.le_refl 2
  · rw [er, eg, eb, hfits] at hnot
    cases hnot

/-- No chunk that produces the pixel is shorter than the miss chunk, INDEX apart. -/
theorem length_selectMiss_le {i : Instr} {d : DecCtx} {P : Pixel} (hwf : i.wf = true) (hrun : i.kind ≠ .run)
    (hindex : i.kind ≠ .index) (hP : pixelsOf i d = [P]) : (selectMiss P d.prev).length ≤ i.length := by
  cases i with
  | rgb r g b =>
    cases hP
    exact length_selectMiss_le_four rfl
  | rgba r g b a => cases selectMiss P d.prev <;> simp [Instr.length]
  | diff dr dg db =>
    cases hP
    exact (length_selectMiss_movedPixel_diff hwf).le
  | luma dg drg dbg =>
    cases hP
    exact length_selectMiss_movedPixel_luma hwf
  | index slot => exact absurd rfl hindex
  | run count => exact absurd rfl hrun

/-- A chunk other than RUN produces one pixel, which becomes `prev`. -/
theorem pixelsOf_of_exec {i : Instr} {s t : State} (hrun : i.kind ≠ .run) (h : exec i s = .next t) :
    pixelsOf i s.dec = [t.dec.prev] := by
  have hone : i.pixels = 1 := by
    cases i with
    | run count => exact absurd rfl hrun
    | rgb | rgba | index | diff | luma => rfl
  obtain ⟨p, hp⟩ := List.length_eq_one_iff.1 ((pixelsOf_length i s.dec).trans hone)
  rw [exec_of_kind_ne_run hrun hp] at h
  cases h
  exact hp

/-- Settles O39: INDEX has one byte, and a miss chunk is compared kind by kind with those that make the pixel; INDEX of the
pixel's own slot is not one of them on a miss. -/
theorem firstMatchIsSmallest : Obligations.FirstMatchIsSmallest := by
  unfold Obligations.FirstMatchIsSmallest
  intro P e _
  refine ⟨fun hhit => selectChunk_of_hit ((cacheLookup_iff P e.C).1 hhit), ?_⟩
  rintro i s t hwf hrun hown hprev hC hexec rfl
  have hpixel := pixelsOf_of_exec hrun hexec
  rw [encode_length, encode_length]
  by_cases hhit : cacheRead (hash t.dec.prev) e.C = t.dec.prev
  · rw [selectChunk_of_hit hhit]
    exact instr_length_pos i
  · rw [selectChunk_of_miss hhit, ← hprev]
    refine length_selectMiss_le hwf hrun (fun hindex => ?_) hpixel
    cases i with
    | index slot =>
      obtain rfl := hown slot rfl
      rw [← hC] at hhit
      exact hhit (List.singleton_inj.1 hpixel)
    | rgb | rgba | diff | luma | run => cases hindex

/-! ### What is never selected for a pixel other than `prev` (R152, R94) -/

/-- INDEX is selected on a hit only, and names the pixel's own slot. -/
theorem selectChunk_eq_index_iff {P : Pixel} {e : EncCtx} {i : Slot} :
    selectChunk P e = .index i ↔ hash P = i ∧ cacheRead i e.C = P := by
  constructor
  · intro h
    by_cases hhit : cacheRead (hash P) e.C = P
    · rw [selectChunk_of_hit hhit, Instr.index.injEq] at h
      subst h
      exact ⟨rfl, hhit⟩
    · rw [selectChunk_of_miss hhit] at h
      exact absurd (congrArg Instr.kind h) (selectMiss_kind_ne_index P e.prev)
  · rintro ⟨rfl, hhit⟩
    exact selectChunk_of_hit hhit

/-- A chunk of another kind than INDEX is selected on a miss. -/
theorem miss_of_selectChunk_kind {P : Pixel} {e : EncCtx} (h : (selectChunk P e).kind ≠ .index) :
    ¬ cacheLookup P e.C = true ∧ selectChunk P e = selectMiss P e.prev := by
  have hmiss : cacheRead (hash P) e.C ≠ P := fun hhit => h (by rw [selectChunk_of_hit hhit]; rfl)
  exact ⟨mt (cacheLookup_iff P e.C).1 hmiss, selectChunk_of_miss hmiss⟩

theorem addDelta_zero (c : Byte) : addDelta c 0 = c := by
  have := c.isLt
  apply byte_ext
  rw [toNat_addDelta]
  omega

/-- Three zero differences make no other pixel. -/
theorem selectMiss_ne_diff_zero {P prev : Pixel} (hP : P ≠ prev) : selectMiss P prev ≠ .diff 0 0 0 := by
  intro hzero
  obtain ⟨-, h⟩ | ⟨ha, -, h⟩ | ⟨-, -, -, h⟩ | ⟨-, -, -, h⟩ := selectMiss_cases P prev <;> rw [hzero] at h
  case inr.inl =>
    obtain ⟨hr, hg, hb⟩ := Instr.diff.inj h
    have hmoved := movedPixel_delta P prev ha
    rw [← hr, ← hg, ← hb, movedPixel, addDelta_zero, addDelta_zero, addDelta_zero] at hmoved
    exact hP hmoved.symm
  all_goals cases h

/-- A miss chunk of a larger kind is selected only where the smaller ones do not apply. -/
theorem selectMiss_kind_imp (P prev : Pixel) :
    ((selectMiss P prev).kind = .luma → ¬ fitsDiff (delta P.r prev.r) (delta P.g prev.g) (delta P.b prev.b) = true) ∧
      ((selectMiss P prev).kind = .rgb →
        ¬ fitsDiff (delta P.r prev.r) (delta P.g prev.g) (delta P.b prev.b) = true ∧
          ¬ fitsLuma (delta P.r prev.r) (delta P.g prev.g) (delta P.b prev.b) = true) ∧
      ((selectMiss P prev).kind = .rgba → P.a ≠ prev.a) := by
  obtain ⟨ha, h⟩ | ⟨-, -, h⟩ | ⟨-, hd, -, h⟩ | ⟨-, hd, hl, h⟩ := selectMiss_cases P prev <;> rw [h]
  · exact ⟨nofun, nofun, fun _ => ha⟩
  · exact ⟨nofun, nofun, nofun⟩
  · exact ⟨fun _ => by simp [hd], nofun, nofun⟩
  · exact ⟨nofun, fun _ => by simp [hd, hl], nofun⟩

theorem selectChunk_never {P : Pixel} {e : EncCtx} (hP : P ≠ e.prev) :
    selectChunk P e ≠ .diff 0 0 0 ∧
      (∀ i, selectChunk P e = .index i → cacheRead i e.C ≠ e.prev) ∧
      ((selectChunk P e).kind = .luma →
        ¬ fitsDiff (delta P.r e.prev.r) (delta P.g e.prev.g) (delta P.b e.prev.b) = true) ∧
      ((selectChunk P e).kind = .rgb →
        ¬ fitsDiff (delta P.r e.prev.r) (delta P.g e.prev.g) (delta P.b e.prev.b) = true ∧
          ¬ fitsLuma (delta P.r e.prev.r) (delta P.g e.prev.g) (delta P.b e.prev.b) = true ∧
          ¬ cacheLookup P e.C = true) ∧
      ((selectChunk P e).kind = .rgba → P.a ≠ e.prev.a ∧ ¬ cacheLookup P e.C = true) := by
  obtain ⟨hluma, hrgb, hrgba⟩ := selectMiss_kind_imp P e.prev
  by_cases hindex : (selectChunk P e).kind = .index
  · refine ⟨fun h => ?_, fun i h => ?_, ?_, ?_, ?_⟩
    · rw [h] at hindex
      cases hindex
    · rw [(selectChunk_eq_index_iff.1 h).2]
      exact hP
    all_goals rw [hindex]; nofun
  · obtain ⟨hmiss, hselect⟩ := miss_of_selectChunk_kind hindex
    refine ⟨?_, fun i h => ?_, ?_, fun h => ?_, fun h => ?_⟩
    · rw [hselect]
      exact selectMiss_ne_diff_zero hP
    · exact absurd (congrArg Instr.kind h) hindex
    · rwa [hselect]
    · rw [hselect] at h
      exact ⟨(hrgb h).1, (hrgb h).2, hmiss⟩
    · rw [hselect] at h
      exact ⟨hrgba h, hmiss⟩

/-! ### INDEX names a pixel of an earlier miss (R94) -/

/-- A pixel that a slot other than 0 and 53 holds was written there by a miss. -/
theorem exists_miss_of_cached {P : Pixel} (h0 : hash P ≠ 0) (h53 : hash P ≠ 53) (Px : List Pixel)
    (hcached : cacheRead (hash P) (encodePixels Px EncCtx.reset).C = P) :
    ∃ before after : List Pixel, Px = before ++ P :: after ∧ P ≠ (encodePixels before EncCtx.reset).prev ∧
      cacheLookup P (encodePixels before EncCtx.reset).C = false := by
  induction Px using List.reverseRecOn with
  | nil =>
    have hzero : cacheRead (hash P) resetCache = Config.zero := by rw [cacheRead_resetCache, if_neg h53]
    have hP : Config.zero = P := hzero.symm.trans hcached
    rw [← hP] at h0
    exact absurd rfl h0
  | append_singleton Px Q ih =>
    by_cases hbefore : cacheRead (hash P) (encodePixels Px EncCtx.reset).C = P
    · obtain ⟨before, after, rfl, hmiss⟩ := ih hbefore
      exact ⟨before, after ++ [Q], by rw [List.append_assoc, List.cons_append], hmiss⟩
    · rw [encodePixels_append, encodePixels_cons, encodePixels_nil, encodePixel_C] at hcached
      split at hcached
      case isTrue => exact absurd hcached hbefore
      case isFalse hne =>
        rw [cacheRead_cacheWrite] at hcached
        split at hcached
        · subst hcached
          exact ⟨Px, [], rfl, hne, Bool.eq_false_iff.2 (mt (cacheLookup_iff _ _).1 hbefore)⟩
        · exact absurd hcached hbefore

/-! ### Where a RUN stands (R152) -/

theorem getLastD_append (ps qs : List Pixel) (q : Pixel) : (ps ++ qs).getLastD q = qs.getLastD (ps.getLastD q) := by
  simp only [List.getLastD_eq_getLast?, List.getLast?_append, Option.getD_or]

/-- What playing chunks appends, and the pixel produced last. -/
theorem playAll_appends (is : List Instr) (s : State) :
    ∃ ps : List Pixel, ps.length = (is.map Instr.pixels).sum ∧ (playAll is s).dec.PxOut = s.dec.PxOut ++ ps ∧
      (playAll is s).dec.prev = ps.getLastD s.dec.prev := by
  induction is generalizing s with
  | nil => exact ⟨[], rfl, (List.append_nil _).symm, rfl⟩
  | cons i is ih =>
    obtain ⟨ps, hlength, hPxOut, hprev⟩ := ih (play i s)
    refine ⟨pixelsOf i s.dec ++ ps, ?_, ?_, ?_⟩
    · rw [List.length_append, pixelsOf_length, hlength, List.map_cons, List.sum_cons]
    · rw [playAll_cons, hPxOut, play_PxOut, List.append_assoc]
    · rw [playAll_cons, hprev, play_eq]
      exact (getLastD_append _ _ _).symm

/-- The pixels of a RUN in a body repeat the one before them, or `PREV_INIT` where there is none. -/
theorem eq_append_replicate_of_run {Px : List Pixel} {before after : List Instr} {count : Nat}
    (h : chunksOf Px EncCtx.reset = before ++ .run count :: after) :
    ∃ ps qs : List Pixel, ps.length = (before.map Instr.pixels).sum ∧
      Px = ps ++ List.replicate count (ps.getLastD Config.prevInit) ++ qs := by
  have hall : (playAll (chunksOf Px EncCtx.reset) (started Px)).dec.PxOut = Px :=
    playAll_chunksOf_PxOut Px (inStep_started Px)
  obtain ⟨ps, hlength, hPxOut, hprev⟩ := playAll_appends before (started Px)
  obtain ⟨qs, -, hrest, -⟩ := playAll_appends after (play (.run count) (playAll before (started Px)))
  rw [h, playAll_append, playAll_cons, hrest, play_PxOut, pixelsOf, hPxOut, hprev] at hall
  exact ⟨ps, qs, hlength, hall.symm⟩

/-- Before the element at `ps.length` stands the last one of `ps`, or the default in front. -/
theorem getElem?_cons_length (ps : List Pixel) (q : Pixel) : (q :: ps)[ps.length]? = some (ps.getLastD q) := by
  induction ps generalizing q with
  | nil => rfl
  | cons p ps ih => exact (ih p).trans (congrArg some List.getLastD_cons.symm)

/-- A repetition of the pixel before equals the pixel one position earlier. -/
theorem getElem?_repetition (ps qs : List Pixel) (q : Pixel) {count j : Nat} (hj : j < count) :
    (ps ++ List.replicate count (ps.getLastD q) ++ qs)[ps.length + j]? =
      (q :: (ps ++ List.replicate count (ps.getLastD q) ++ qs))[ps.length + j]? := by
  have hrepeat (k : Nat) (hk : k < count) :
      (ps ++ List.replicate count (ps.getLastD q) ++ qs)[ps.length + k]? = some (ps.getLastD q) := by
    rw [List.append_assoc, List.getElem?_append_right (Nat.le_add_right _ _), Nat.add_sub_cancel_left,
      List.getElem?_append_left (by rwa [List.length_replicate]), List.getElem?_replicate_of_lt hk]
  rw [hrepeat j hj]
  cases j with
  | zero =>
    rw [List.append_assoc, ← List.cons_append, Nat.add_zero, List.getElem?_append_left (Nat.lt_succ_self _),
      getElem?_cons_length]
  | succ j => exact (hrepeat j (Nat.lt_of_succ_lt hj)).symm

/-- Every pixel of a RUN in a body equals the pixel before it. -/
theorem run_repeats {Px : List Pixel} {k count j : Nat} (hrun : (chunksOf Px EncCtx.reset)[k]? = some (.run count))
    (hj : j < count) :
    (((chunksOf Px EncCtx.reset).take k).map Instr.pixels).sum + j < Px.length ∧
      Px[(((chunksOf Px EncCtx.reset).take k).map Instr.pixels).sum + j]? =
        (Config.prevInit :: Px)[(((chunksOf Px EncCtx.reset).take k).map Instr.pixels).sum + j]? := by
  obtain ⟨hk, hget⟩ := List.getElem?_eq_some_iff.1 hrun
  have hsplit := List.take_append_drop k (chunksOf Px EncCtx.reset)
  rw [List.drop_eq_getElem_cons hk, hget] at hsplit
  obtain ⟨ps, qs, hlength, rfl⟩ := eq_append_replicate_of_run hsplit.symm
  rw [← hlength]
  refine ⟨?_, getElem?_repetition ps qs Config.prevInit hj⟩
  rw [List.length_append, List.length_append, List.length_replicate]
  omega

/-! ### The first chunk, and adjacent RUNs (R152) -/

theorem head?_chunksOf_of_run_pos {i : Slot} (Px : List Pixel) {e : EncCtx} (hrun : 0 < e.run) :
    (chunksOf Px e).head? ≠ some (.index i) := by
  obtain ⟨count, is, hchunks, -⟩ := chunksOf_of_run_pos Px hrun
  rw [hchunks]
  nofun

/-- The first chunk is not INDEX of the slot in which `prev` stands. -/
theorem head?_chunksOf_ne_index {i : Slot} (Px : List Pixel) {e : EncCtx} (h : cacheRead i e.C = e.prev) :
    (chunksOf Px e).head? ≠ some (.index i) := by
  obtain hnone | hpending := Nat.eq_zero_or_pos e.run
  case inr => exact head?_chunksOf_of_run_pos Px hpending
  have hflushed : flushed e = [] := if_neg (Nat.not_lt.2 hnone.le)
  cases Px with
  | nil =>
    rw [chunksOf, emittedAll_nil, List.nil_append, encodePixels_nil, hflushed]
    nofun
  | cons P Px =>
    rw [chunksOf_cons, emitted, hflushed]
    split_ifs with hP hfull
    · nofun
    · subst hP
      rw [encodePixel_of_prev, extendRun_of_not_full hfull]
      exact head?_chunksOf_of_run_pos Px (Nat.succ_pos _)
    · intro hhead
      exact (selectChunk_never hP).2.1 i (Option.some.inj hhead) h

/-- A RUN follows another RUN only where that one is full. -/
def RunsMeetFull (i j : Instr) : Prop := j.kind = .run → i.kind = .run → i = .run 62

theorem isChain_flushed (e : EncCtx) : (flushed e).IsChain RunsMeetFull := by
  unfold flushed
  split
  · exact .singleton _
  · exact .nil

theorem isChain_chunksOf (Px : List Pixel) (e : EncCtx) : (chunksOf Px e).IsChain RunsMeetFull := by
  induction Px generalizing e with
  | nil => exact isChain_flushed e
  | cons P Px ih =>
    rw [chunksOf_cons, emitted]
    split_ifs
    · exact (ih _).cons fun _ _ _ _ => rfl
    · exact ih _
    · rw [List.append_assoc]
      refine (isChain_flushed e).append ((ih _).cons fun _ _ _ hrun => absurd hrun (selectChunk_kind P e)) ?_
      rintro i - j hj hrun
      cases hj
      exact absurd hrun (selectChunk_kind P e)

/-- Settles O40: a selection by the cases of the decision order; INDEX, a pixel that a miss wrote; a RUN, by the pixels that
DEC produces from the chunks before it; its neighbours, by the chunks that each pixel emits. -/
theorem encNeverEmits : Obligations.EncNeverEmits := by
  unfold Obligations.EncNeverEmits
  simp only [disassemble_encodeBody]
  refine ⟨fun P e => selectChunk_never, fun Px P i _ hselect h0 h53 => ?_, fun Px k c hrun j hj => run_repeats hrun hj,
    fun Px => ⟨head?_chunksOf_ne_index Px rfl, fun k c c' hfirst hsecond => ?_⟩⟩
  · obtain ⟨rfl, hcached⟩ := selectChunk_eq_index_iff.1 hselect
    obtain ⟨before, after, hPx, hne, hmiss⟩ := exists_miss_of_cached h0 h53 Px hcached
    exact ⟨before, after, hPx, rfl, hne, hmiss⟩
  · obtain ⟨hk, hget⟩ := List.getElem?_eq_some_iff.1 hsecond
    obtain ⟨_, hget'⟩ := List.getElem?_eq_some_iff.1 hfirst
    have hmeet := List.isChain_iff_getElem.1 (isChain_chunksOf Px EncCtx.reset) k hk
    rw [hget, hget'] at hmeet
    exact Instr.run.inj (hmeet rfl rfl)

end Sys2Proof.Machine
end

section
/-!
One encode as the steps of its commands, and the RUN chunks of a repeated pixel (42_chunk_encoder.md R153, 44_laws.md R206).
-/
namespace Sys2Proof.Machine

/-! ### The commands of one encode (R153, R254) -/

/-- The `EncPixel` commands and the `EncFinish` that follow the reset. -/
theorem runSteps_encode (Px : List Pixel) {s : State} {rest : List Command} (hup : s.encUp = true)
    (hact : s.enc.phase = .active) (hhost : s.host = Px.map Command.encPixel ++ .encFinish :: rest) :
    runSteps (Px.length + 1) s = .next { s with enc := finishEnc (encodePixels Px s.enc), host := rest } := by
  induction Px generalizing s with
  | nil =>
    obtain ⟨hnext, hrest⟩ := nextCommand_cons hhost
    refine (runSteps_succ 0 (step_of_encFinishReady ⟨hnext, hup, hact⟩)).trans ?_
    rw [runSteps_zero, ← hrest]
    rfl
  | cons P Px ih =>
    obtain ⟨hnext, hrest⟩ := nextCommand_cons hhost
    rw [List.length_cons, runSteps_succ _ (step_of_encPixelReady ⟨hnext, hup, hact⟩)]
    exact ih (s := { takeCommand s with enc := encodePixel P s.enc }) hup ((encodePixel_phase P s.enc).trans hact) hrest

/-- Settles O41: the reset makes ENC's context independent of the state, and each command after it is its update. -/
theorem encodeBodyIsWhatEncDoes : Obligations.EncodeBodyIsWhatEncDoes := by
  unfold Obligations.EncodeBodyIsWhatEncDoes
  intro s Px rest hhost
  rw [encodeCommands, List.cons_append, List.append_assoc, List.singleton_append] at hhost
  obtain ⟨hnext, hrest⟩ := nextCommand_cons hhost
  have hrun := runSteps_encode Px (s := encReset (takeCommand s)) rfl rfl hrest
  exact ⟨_, (runSteps_succ (Px.length + 1) (step_of_encReset hnext)).trans hrun, rfl, rfl, rfl, rfl⟩

/-! ### A pixel repeated (R206) -/

/-- The bytes of `m` repetitions: full RUN chunks, and one for the rest. -/
def runBytes (m : Nat) : List Byte :=
  List.replicate (m / 62) 0xFD ++ if m % 62 = 0 then [] else [BitVec.ofNat 8 (0xC0 + (m % 62 - 1))]

/-- ENC after `m` repetitions: the full chunks are out, the rest is pending. -/
theorem encodePixels_replicate_prev (m : Nat) {e : EncCtx} (hrun : e.run = 0) :
    encodePixels (List.replicate m e.prev) e =
      { e with run := m % 62, Out := e.Out ++ List.replicate (m / 62) 0xFD } := by
  induction m with
  | zero =>
    rw [List.replicate_zero, encodePixels_nil, Nat.zero_div, List.replicate_zero, List.append_nil, Nat.zero_mod, ← hrun]
  | succ m ih =>
    rw [List.replicate_succ', encodePixels_append, ih, encodePixels_cons, encodePixels_nil, encodePixel,
      if_pos rfl]
    by_cases hfull : m % 62 + 1 = 62
    · have hmod : (m + 1) % 62 = 0 := by omega
      have hdiv : (m + 1) / 62 = m / 62 + 1 := by omega
      rw [extendRun_of_full hfull, hmod, hdiv, List.replicate_succ', List.append_assoc]
    · have hmod : (m + 1) % 62 = m % 62 + 1 := by omega
      have hdiv : (m + 1) / 62 = m / 62 := by omega
      rw [extendRun_of_not_full hfull, hmod, hdiv]

/-- The flush after `m` repetitions. -/
theorem flushRun_encodePixels_replicate (m : Nat) {e : EncCtx} (hrun : e.run = 0) :
    flushRun (encodePixels (List.replicate m e.prev) e) = { e with run := 0, Out := e.Out ++ runBytes m } := by
  have hpending : (if 0 < m % 62 then [BitVec.ofNat 8 (0xC0 + (m % 62 - 1))] else ([] : List Byte)) =
      if m % 62 = 0 then [] else [BitVec.ofNat 8 (0xC0 + (m % 62 - 1))] := by
    obtain hnone | hsome := Nat.eq_zero_or_pos (m % 62)
    · rw [if_pos hnone, if_neg hnone.not_gt]
    · rw [if_pos hsome, if_neg (Nat.ne_of_gt hsome)]
  rw [encodePixels_replicate_prev m hrun, flushRun_eq, runBytes, ← hpending, List.append_assoc]

theorem finishEnc_replicate_Out (m : Nat) {e : EncCtx} (hrun : e.run = 0) :
    (finishEnc (encodePixels (List.replicate m e.prev) e)).Out = e.Out ++ runBytes m := by
  rw [finishEnc_Out, flushRun_encodePixels_replicate m hrun]

/-- Settles O48: both `EncFinish` and a pixel other than `prev` flush the pending run; the two bodies of 130 pixels are the
repetitions from reset, and from the context after a first pixel. -/
theorem runBounds : Obligations.RunBounds := by
  unfold Obligations.RunBounds
  refine ⟨fun e m hrun _ => ⟨finishEnc_replicate_Out m hrun, fun Q hQ => ?_⟩, ?_, ?_⟩
  · have hprev : (encodePixels (List.replicate m e.prev) e).prev = e.prev := by rw [encodePixels_replicate_prev m hrun]
    rw [encodePixel, hprev, if_neg hQ, emitChunk_Out, flushRun_encodePixels_replicate m hrun]
    rfl
  · exact finishEnc_replicate_Out 130 (e := EncCtx.reset) rfl
  · have hrest := finishEnc_replicate_Out 129 (e := encodePixel ⟨7, 7, 7, 255⟩ EncCtx.reset) (by decide)
    have hfirst : List.replicate 130 (⟨7, 7, 7, 255⟩ : Pixel) = _ :: List.replicate 129 _ := List.replicate_succ
    rw [encodePixel_prev] at hrest
    rw [encodeBody, hfirst, encodePixels_cons, hrest]
    decide

end Sys2Proof.Machine
end
